-- ==== Sys2Proof/Word.lean ====
section
/-!
DEFINITION. The words of BNMoyers CORE: the byte of a register, cell, opcode or operand (R5, R10, R18), the 9-bit
program counter (R13) and the index of a general register (R10).
-/
namespace Sys2Proof

/-- A register, a memory cell, an opcode byte or an operand byte: 8 bits, unsigned (R5). -/
abbrev Byte := BitVec 8

/-- The program counter's word: 9 bits, so that it holds 0 to 256 without wrapping (R13). -/
abbrev PcWord := BitVec 9

/-- The index of one of the 8 general registers (R10). -/
abbrev RegIdx := Fin 8

end Sys2Proof
end

