-- ==== Sys2Proof/Config.lean ====
section
/-!
DEFINITION. The fixed parameters of the hardware (R4). The spec leaves none open and gives no instruction an
unspecified result, so there is no free value here.
-/
namespace Sys2Proof.Config

/-- MEM_SIZE of R4: the number of memory cells, addresses 0 to 255 (R18). -/
abbrev memSize : Nat := 256

/-- SP_INDEX of R4: the register used as stack pointer (R12). -/
abbrev spIndex : RegIdx := 7

/-- SP_RESET of R4: the reset value of register 7 (R21). -/
abbrev spReset : Byte := 0xF4#8

/-- The reset value of the program counter (R4, R21). -/
abbrev pcReset : PcWord := 0#9

/-- The address at which the loader places the first byte (R4, R144). -/
abbrev loadAddress : Nat := 0

/-- The highest address an instruction can execute from: its 3-byte fetch window ends at 255 (R63). -/
abbrev lastFetchable : Nat := 253

end Sys2Proof.Config
end

