-- ==== Sys2Proof/Machine/State.lean ====
section
/-!
DEFINITION. The state of the machine as plain data (R22), its reset value (R21), and the reasons a step or a host
operation can stop.
-/
namespace Sys2Proof.Machine

/-- The four fatal errors with the information each carries (R17, R121 to R124, D16). -/
inductive FatalError where
  /-- The fetched byte is none of the 24 opcodes: the byte and the address it was fetched from (R121). -/
  | unknownOpcode (opcode : Byte) (pc : PcWord)
  /-- An access beyond the memory array: the address (R122). -/
  | outOfBounds (addr : Nat)
  /-- MOD by zero: the two operand bytes (R123). -/
  | divideByZero (a b : Byte)
  /-- A register operand byte above 7: the opcode byte, the pc and the offending byte (R124). -/
  | badRegisterIndex (opcode : Byte) (pc : PcWord) (index : Byte)
  deriving DecidableEq, Repr

/-- Memory: (address, byte) pairs with strictly rising addresses below 256 and no entry whose byte is 0, which is
what an unlisted address reads as (the reset contents of R21). -/
abbrev Memory := List Host.Cell

/-- The complete state (R22) with the output sink's sequence `out` (R78). -/
structure State where
  /-- x[0] to x[7], R10; x[7] is the stack pointer, R12. -/
  regs : Vector Byte 8
  /-- The program counter, 0 to 256, R13 (logs 3 and 4). -/
  pc : PcWord
  /-- The flags register, E bit 0, G bit 1, L bit 2, R15. -/
  fl : Byte
  /-- The running flag, R16. -/
  running : Bool
  /-- The error latch, R17 (logs 2 and 17). -/
  err : Option FatalError
  /-- The memory array, R18. -/
  mem : Memory
  /-- The values handed to the output sink, oldest first, R78 (log 14). -/
  out : List Byte
  deriving DecidableEq, Repr

/-- The machine right after reset (R21, R140). -/
def State.reset : State where
  regs := #v[0#8, 0#8, 0#8, 0#8, 0#8, 0#8, 0#8, Config.spReset]
  pc := Config.pcReset
  fl := 0#8
  running := false
  err := none
  mem := []
  out := []

/-- Why `step` gives no next state. Neither is an instruction's outcome: an instruction that raises a fatal error
takes a next state with `err` set (R120). -/
inductive Fault where
  /-- Raised by `step` on a machine whose error latch is set: the core takes no further step, and the caller of
  `run` has received this error (R120, R129). Safe: the hardware takes no step either. -/
  | fatalError (e : FatalError)
  /-- Raised by `step` on a core with `running = false`: before `run`, or after HLT, no step exists (R61, R133).
  Safe: the hardware takes no step either. -/
  | notRunning
  deriving DecidableEq, Repr

/-- Why an instruction has no meaning, or a host operation does not exist in a state. -/
inductive Refusal where
  /-- An instruction that has no meaning yet, raised by `exec` alone. Safe: the model stops. -/
  | notModelled (mnemonic : String)
  /-- Raised by `hostReset` while the core is in the middle of `run` (R131). Safe. -/
  | resetWhileRunning
  /-- Raised by `hostLoad` while the core is in the middle of `run` (R131, R144). Safe. -/
  | loadWhileRunning
  /-- Raised by `hostLoad` for more than 256 bytes: the load is refused as a whole (R144, D11). Safe. -/
  | loadTooLong
  /-- Raised by `hostRun` while the core is already running (R60, D10). Safe. -/
  | runWhileRunning
  /-- Raised by `hostRun` on a machine whose error latch is set (R60, R129, D10). Safe. -/
  | runAfterError
  deriving DecidableEq, Repr

/-- What a meaning, a step or a host operation answers. -/
abbrev Result := Host.Outcome State Fault Refusal

end Sys2Proof.Machine
end

