-- ==== Sys2Proof/Machine/Flags.lean ====
section
/-!
DEFINITION. The flags register: its three bits (R15, D5; UNVERIFIED, log 10), the value CMP writes (R100) and the
conditions of the conditional jumps (R107 to R112).
-/
namespace Sys2Proof.Machine

/-- The E (equal) bit, bit 0 (R15). -/
def flagE (fl : Byte) : Bool := fl.getLsbD 0

/-- The G (greater-than) bit, bit 1 (R15). -/
def flagG (fl : Byte) : Bool := fl.getLsbD 1

/-- The L (less-than) bit, bit 2 (R15). -/
def flagL (fl : Byte) : Bool := fl.getLsbD 2

/-- A flags register with the three bits given and bits 7 to 3 zero (R15). -/
def flagsOf (e g l : Bool) : Byte :=
  (if e then 0x01#8 else 0#8) ||| (if g then 0x02#8 else 0#8) ||| (if l then 0x04#8 else 0#8)

/-- The flags CMP leaves for first operand `x` and second operand `y`, both unsigned (R100, D13; UNVERIFIED, log 9):
all three bits are reset, then the matching one is set. -/
def compareFlags (x y : Byte) : Byte :=
  if x.toNat = y.toNat then flagsOf true false false
  else if x.toNat > y.toNat then flagsOf false true false
  else flagsOf false false true

/-- JEQ is taken when E is 1 (R107). -/
def condEq (fl : Byte) : Bool := flagE fl

/-- JNE is taken when E is 0, whatever G and L are (R108, C6). -/
def condNe (fl : Byte) : Bool := !flagE fl

/-- JGT is taken when G is 1 (R109). -/
def condGt (fl : Byte) : Bool := flagG fl

/-- JLT is taken when L is 1 (R110). -/
def condLt (fl : Byte) : Bool := flagL fl

/-- JGE is taken when E or G is 1 (R111). -/
def condGe (fl : Byte) : Bool := flagE fl || flagG fl

/-- JLE is taken when E or L is 1 (R112). -/
def condLe (fl : Byte) : Bool := flagE fl || flagL fl

end Sys2Proof.Machine
end

