-- ==== Sys2Proof/Syntax.lean ====
section
/-!
DEFINITION. The 24 instructions (R50), one constructor per row of spec/opcode_table.json. An operand is the whole
operand byte (R53, R54): a register operand above 7 is an operand the instruction can carry and that its meaning
validates (R66), so the constructor takes the byte.
-/
namespace Sys2Proof

inductive Instr where
  /-- HLT (R75). -/
  | hlt
  /-- LDI a,v (R76). -/
  | ldi (a v : Byte)
  /-- PRN a (R77). -/
  | prn (a : Byte)
  /-- PUSH a (R81). -/
  | push (a : Byte)
  /-- POP a (R82). -/
  | pop (a : Byte)
  /-- CALL a (R83). -/
  | call (a : Byte)
  /-- RET (R84). -/
  | ret
  /-- ADD a,b (R91). -/
  | add (a b : Byte)
  /-- MUL a,b (R92). -/
  | mul (a b : Byte)
  /-- MOD a,b (R93). -/
  | mod (a b : Byte)
  /-- AND a,b (R94). -/
  | and (a b : Byte)
  /-- OR a,b (R95). -/
  | or (a b : Byte)
  /-- XOR a,b (R96). -/
  | xor (a b : Byte)
  /-- NOT a (R97). -/
  | not (a : Byte)
  /-- SHL a,b (R98). -/
  | shl (a b : Byte)
  /-- SHR a,b (R99). -/
  | shr (a b : Byte)
  /-- CMP a,b (R100). -/
  | cmp (a b : Byte)
  /-- JMP a (R106). -/
  | jmp (a : Byte)
  /-- JEQ a (R107). -/
  | jeq (a : Byte)
  /-- JNE a (R108). -/
  | jne (a : Byte)
  /-- JGT a (R109). -/
  | jgt (a : Byte)
  /-- JLT a (R110). -/
  | jlt (a : Byte)
  /-- JGE a (R111). -/
  | jge (a : Byte)
  /-- JLE a (R112). -/
  | jle (a : Byte)
  deriving DecidableEq, Repr

end Sys2Proof
end

