-- ==== Sys2Proof/Decode.lean ====
section
/-!
DEFINITION. The instruction encoding: formats and lengths (R45 to R49), the opcode map (R50), the decoder, which
compares the whole opcode byte (R51, R64), and the encoder.
-/
namespace Sys2Proof

/-- The four instruction formats (R45 to R49). -/
inductive Format where
  /-- Z: the opcode byte alone (R46). -/
  | z
  /-- R: opcode, register byte (R47). -/
  | r
  /-- RR: opcode, two register bytes (R48). -/
  | rr
  /-- RI: opcode, register byte, immediate byte (R49). -/
  | ri
  deriving DecidableEq, Repr

/-- The length in bytes of each format (R45). -/
def formatLength : Format → Nat
  | .z => 1
  | .r => 2
  | .rr => 3
  | .ri => 3

/-- Why the decoder gives no instruction. -/
inductive DecodeReject where
  /-- The opcode byte is none of the 24 of R50 (R55, R65). -/
  | unknownOpcode (opcode : Byte)
  /-- Fewer than three bytes: not a fetch window (R62). -/
  | truncatedWindow
  deriving DecidableEq, Repr

/-- The dispatcher (R64, R65): the instruction the opcode byte `ir` selects, with the candidate operand bytes
`opa` and `opb`. All 8 bits of `ir` are compared; bytes the instruction does not use are ignored (R46, R47). -/
def decode (ir opa opb : Byte) : Except DecodeReject Instr :=
  match ir with
  | 0x01#8 => .ok .hlt
  | 0x11#8 => .ok .ret
  | 0x45#8 => .ok (.push opa)
  | 0x46#8 => .ok (.pop opa)
  | 0x47#8 => .ok (.prn opa)
  | 0x50#8 => .ok (.call opa)
  | 0x54#8 => .ok (.jmp opa)
  | 0x55#8 => .ok (.jeq opa)
  | 0x56#8 => .ok (.jne opa)
  | 0x57#8 => .ok (.jgt opa)
  | 0x58#8 => .ok (.jlt opa)
  | 0x59#8 => .ok (.jle opa)
  | 0x5A#8 => .ok (.jge opa)
  | 0x69#8 => .ok (.not opa)
  | 0x82#8 => .ok (.ldi opa opb)
  | 0xA0#8 => .ok (.add opa opb)
  | 0xA2#8 => .ok (.mul opa opb)
  | 0xA4#8 => .ok (.mod opa opb)
  | 0xA7#8 => .ok (.cmp opa opb)
  | 0xA8#8 => .ok (.and opa opb)
  | 0xAA#8 => .ok (.or opa opb)
  | 0xAB#8 => .ok (.xor opa opb)
  | 0xAC#8 => .ok (.shl opa opb)
  | 0xAD#8 => .ok (.shr opa opb)
  | other => .error (.unknownOpcode other)

/-- Decoding any list of bytes: the first three are the fetch window (R62), what follows is not looked at. -/
def decodeBytes : List Byte → Except DecodeReject Instr
  | ir :: opa :: opb :: _ => decode ir opa opb
  | _ => .error .truncatedWindow

/-- The opcode byte of each instruction (R50, the source's binary literals). -/
def opcodeOf : Instr → Byte
  | .hlt => 0b00000001#8
  | .ldi _ _ => 0b10000010#8
  | .prn _ => 0b01000111#8
  | .push _ => 0b01000101#8
  | .pop _ => 0b01000110#8
  | .call _ => 0b01010000#8
  | .ret => 0b00010001#8
  | .add _ _ => 0b10100000#8
  | .mul _ _ => 0b10100010#8
  | .mod _ _ => 0b10100100#8
  | .and _ _ => 0b10101000#8
  | .or _ _ => 0b10101010#8
  | .xor _ _ => 0b10101011#8
  | .not _ => 0b01101001#8
  | .shl _ _ => 0b10101100#8
  | .shr _ _ => 0b10101101#8
  | .cmp _ _ => 0b10100111#8
  | .jmp _ => 0b01010100#8
  | .jeq _ => 0b01010101#8
  | .jne _ => 0b01010110#8
  | .jgt _ => 0b01010111#8
  | .jlt _ => 0b01011000#8
  | .jge _ => 0b01011010#8
  | .jle _ => 0b01011001#8

/-- The format of each instruction (R46 to R50). -/
def formatOf : Instr → Format
  | .hlt => .z
  | .ldi _ _ => .ri
  | .prn _ => .r
  | .push _ => .r
  | .pop _ => .r
  | .call _ => .r
  | .ret => .z
  | .add _ _ => .rr
  | .mul _ _ => .rr
  | .mod _ _ => .rr
  | .and _ _ => .rr
  | .or _ _ => .rr
  | .xor _ _ => .rr
  | .not _ => .r
  | .shl _ _ => .rr
  | .shr _ _ => .rr
  | .cmp _ _ => .rr
  | .jmp _ => .r
  | .jeq _ => .r
  | .jne _ => .r
  | .jgt _ => .r
  | .jlt _ => .r
  | .jge _ => .r
  | .jle _ => .r

/-- The length of an instruction in bytes (R45, R50). -/
def instrLength (i : Instr) : Nat := formatLength (formatOf i)

/-- The operand bytes that follow the opcode byte, in ascending address order (R33, R46 to R49). -/
def operandBytes : Instr → List Byte
  | .hlt => []
  | .ldi a v => [a, v]
  | .prn a => [a]
  | .push a => [a]
  | .pop a => [a]
  | .call a => [a]
  | .ret => []
  | .add a b => [a, b]
  | .mul a b => [a, b]
  | .mod a b => [a, b]
  | .and a b => [a, b]
  | .or a b => [a, b]
  | .xor a b => [a, b]
  | .not a => [a]
  | .shl a b => [a, b]
  | .shr a b => [a, b]
  | .cmp a b => [a, b]
  | .jmp a => [a]
  | .jeq a => [a]
  | .jne a => [a]
  | .jgt a => [a]
  | .jlt a => [a]
  | .jge a => [a]
  | .jle a => [a]

/-- The bytes of an instruction in ascending address order: the opcode byte, then the operand bytes (R33, R45). -/
def encode (i : Instr) : List Byte := opcodeOf i :: operandBytes i

/-- The three bytes of a fetch window from an instruction's bits numbered as spec/opcode_table.json numbers them:
byte 0 is bits 7..0, byte 1 bits 15..8, byte 2 bits 23..16; bits at and above `nbits` are zero. -/
def wordBytes (nbits w : Nat) : Byte × Byte × Byte :=
  let v := w % 2 ^ nbits
  (BitVec.ofNat 8 v, BitVec.ofNat 8 (v / 256), BitVec.ofNat 8 (v / 65536))

/-- The instruction the decoder reads from the word `w` of `nbits` bits; none where it gives none. -/
def decodeTableWord (nbits w : Nat) : Option Instr :=
  match wordBytes nbits w with
  | (b0, b1, b2) =>
    match decode b0 b1 b2 with
    | .ok i => some i
    | .error _ => none

end Sys2Proof
end

