-- ==== Sys2Proof/Machine/Ops.lean ====
section
/-!
DEFINITION. The named operations over memory, registers, the program counter and the output (R6), raising a fatal
error (R120), and the fetch and dispatch of a step (R62 to R65).
-/
namespace Sys2Proof.Machine

/-! ## The memory list -/

/-- The byte at an address: 0 where nothing is listed (R21, U26, log 11). -/
def Memory.read : Memory → Nat → Byte
  | [], _ => 0#8
  | (k, w) :: rest, a => if a = k then w else Memory.read rest a

/-- The list without its entry for an address. -/
def Memory.erase (m : Memory) (a : Nat) : Memory := m.filter fun c => c.1 != a

/-- The list with the byte `v`, not 0, at an address, placed in rising order. -/
def Memory.insert : Memory → Nat → Byte → Memory
  | [], a, v => [(a, v)]
  | (k, w) :: rest, a, v =>
    if a < k then (a, v) :: (k, w) :: rest
    else if a = k then (a, v) :: rest
    else (k, w) :: Memory.insert rest a v

/-- The memory after the byte `v` is stored at an address, in canonical form. -/
def Memory.write (m : Memory) (a : Nat) (v : Byte) : Memory :=
  if v = 0#8 then Memory.erase m a else Memory.insert m a v

/-- The bytes stored one after another from an address upward (R144). -/
def Memory.writeAll (m : Memory) (a : Nat) : List Byte → Memory
  | [] => m
  | v :: rest => Memory.writeAll (Memory.write m a v) (a + 1) rest

/-- Every entry from here on lies at or above the address `lo` and below 256, rises, and is not 0. -/
def Memory.wfFrom : Nat → Memory → Bool
  | _, [] => true
  | lo, (k, w) :: rest => decide (lo ≤ k) && decide (k < Config.memSize) && (w != 0#8) && Memory.wfFrom (k + 1) rest

/-- The canonical form: addresses strictly rising and below 256, no entry that reads as an unlisted one. -/
def Memory.wf (m : Memory) : Bool := Memory.wfFrom 0 m

/-! ## Registers, program counter, flags, output -/

/-- `x[r]` (R6). -/
def State.reg (s : State) (r : RegIdx) : Byte := s.regs[r.val]

/-- `x[r] <- v` (R6). -/
def State.setReg (s : State) (r : RegIdx) (v : Byte) : State := { s with regs := s.regs.set r.val v }

/-- `sp`, another spelling of `x[7]` (R12). -/
def State.sp (s : State) : Byte := s.reg Config.spIndex

/-- `sp <- v` (R12). -/
def State.setSp (s : State) (v : Byte) : State := s.setReg Config.spIndex v

/-- `pc <- target` (R14). -/
def State.setPc (s : State) (target : PcWord) : State := { s with pc := target }

/-- `pc <- pc + L`, without reduction modulo 256 (R14). In 9 bits it is exact from every pc that can be fetched from
(log 3). -/
def State.advance (s : State) (len : PcWord) : State := s.setPc (s.pc + len)

/-- `pc <- zext_9(target)`: a control transfer (R14). -/
def State.jumpTo (s : State) (target : Byte) : State := s.setPc (target.zeroExtend 9)

/-- `fl <- v` (R15). -/
def State.setFl (s : State) (v : Byte) : State := { s with fl := v }

/-- `running <- v` (R16). -/
def State.setRunning (s : State) (v : Bool) : State := { s with running := v }

/-- `Output(v)`: the sink's sequence gains one value at its end (R77, R78). -/
def State.emit (s : State) (v : Byte) : State := { s with out := s.out ++ [v] }

/-- The memory array replaced. -/
def State.setMem (s : State) (m : Memory) : State := { s with mem := m }

/-! ## Fatal errors -/

/-- `raise e` (R120): the error latch holds `e` and nothing else changes. There is no return from it (R129). That a
raised error is a next state with the latch set is DEDUCED from R17, R67 and R120 (log 2). -/
def raise (e : FatalError) (s : State) : State := { s with err := some e }

/-- The outcome of an instruction begun in `s`: the state its handler reached, or, where the handler raised an error,
the state it began in with the error latched, so that nothing of a partial effect is kept (R120, R126). -/
def settle (s : State) : Except FatalError State → Result
  | .ok t => .next t
  | .error e => .next (raise e s)

/-- The number of each error (D20, log 17); 0 when there is none. -/
def errorCode : Option FatalError → Nat
  | none => 0
  | some (.unknownOpcode _ _) => 1
  | some (.outOfBounds _) => 2
  | some (.divideByZero _ _) => 3
  | some (.badRegisterIndex _ _ _) => 4

/-! ## Memory access -/

/-- `MemRead(addr, 1)` (R31). -/
def memRead (addr : Nat) (s : State) : Except FatalError Byte :=
  if addr < Config.memSize then .ok (Memory.read s.mem addr) else .error (.outOfBounds addr)

/-- `MemWrite(addr, 1, v)` (R32). -/
def memWrite (addr : Nat) (v : Byte) (s : State) : Except FatalError State :=
  if addr < Config.memSize then .ok (s.setMem (Memory.write s.mem addr v)) else .error (.outOfBounds addr)

/-! ## The stack pointer (R80) -/

/-- `sp <- (sp - 1) mod 256`: the first half of a push. -/
def spDec (s : State) : State := s.setSp (s.sp - 1#8)

/-- `sp <- (sp + 1) mod 256`: the second half of a pop. -/
def spInc (s : State) : State := s.setSp (s.sp + 1#8)

/-- A push: `sp` is decremented, then the byte `value` gives in the state after the decrement is written at the new
`sp` (R80, D3, D7; UNVERIFIED, logs 6 and 8). -/
def pushByte (value : State → Byte) (s : State) : Except FatalError State :=
  memWrite (spDec s).sp.toNat (value (spDec s)) (spDec s)

/-- The first half of a pop: the byte at `sp` (R80). -/
def topOfStack (s : State) : Except FatalError Byte := memRead s.sp.toNat s

/-- The return address CALL pushes: `pc + 2` as a byte (R83); exact wherever the CALL could be fetched. -/
def returnByte (s : State) : Byte := (s.pc + 2#9).truncate 8

/-! ## Fetch and dispatch -/

/-- The three reads of every step, in order and without reducing the addresses (R62, R63). For a pc above 256, which
9 bits can hold and no run reaches, the address raised is the pc itself: DESIGN CHOICE (log 3). -/
def fetch (s : State) : Except FatalError (Byte × Byte × Byte) :=
  match memRead s.pc.toNat s with
  | .error e => .error e
  | .ok ir =>
    match memRead (s.pc.toNat + 1) s with
    | .error e => .error e
    | .ok opa =>
      match memRead (s.pc.toNat + 2) s with
      | .error e => .error e
      | .ok opb => .ok (ir, opa, opb)

/-- Fetch, then dispatch: the instruction this step executes, or the error it raises (R63, R65, R70). -/
def fetchInstr (s : State) : Except FatalError Instr :=
  match fetch s with
  | .error e => .error e
  | .ok (ir, opa, opb) =>
    match decode ir opa opb with
    | .ok i => .ok i
    | .error _ => .error (.unknownOpcode ir s.pc)

/-- Why the core takes no step in this state (R61); none when it takes one. That the answer is a fault is the model's
DESIGN CHOICE (log 1). -/
def stepGuard (s : State) : Option Fault :=
  match s.err with
  | some e => some (.fatalError e)
  | none => if s.running then none else some .notRunning

/-- The core is in the middle of `run`: it is stepping and the host has no move (R61, R131). -/
def coreActive (s : State) : Bool := s.running && s.err.isNone

/-- The address `withFetchWord` places an instruction at: the program counter, or 0 where nothing can be fetched at
it (R63). DESIGN CHOICE (log 15). -/
def placeAt (s : State) : PcWord := if s.pc.toNat ≤ Config.lastFetchable then s.pc else 0#9

/-- The state with three bytes stored where the next step fetches and with the core stepping. -/
def placeWindow (b0 b1 b2 : Byte) (s : State) : State :=
  { s with
    pc := placeAt s
    mem := Memory.writeAll s.mem (placeAt s).toNat [b0, b1, b2]
    running := true
    err := none }

end Sys2Proof.Machine
end

