-- ==== Sys2Proof/Machine/Operands.lean ====
section
/-!
DEFINITION. The operand forms: a register operand is a whole byte validated before the instruction has any effect
(R53, R66). An immediate (R54) is the byte itself and needs no operation.
-/
namespace Sys2Proof.Machine

/-- The operand byte that names a register: the index itself (R53). -/
def regByte (r : RegIdx) : Byte := BitVec.ofNat 8 r.val

/-- Validation of one register operand byte `a` of the instruction `i` (R66): its register, or BadRegisterIndex with
the opcode byte, the pc and the byte. The byte is never reduced modulo 8 (R53). The spec's decision D4, UNVERIFIED
(log 5). -/
def checkReg (i : Instr) (a : Byte) (s : State) : Except FatalError RegIdx :=
  if h : a.toNat < 8 then .ok ⟨a.toNat, h⟩ else .error (.badRegisterIndex (opcodeOf i) s.pc a)

/-- The outcome of an instruction with one register operand: validation, then the handler (R66, R67). -/
def withReg (i : Instr) (a : Byte) (s : State) (handler : RegIdx → Except FatalError State) : Result :=
  settle s <|
    match checkReg i a s with
    | .error e => .error e
    | .ok ra => handler ra

/-- The outcome of an instruction with two register operands: `a` is validated, then `b`, then the handler runs
(R66, R67, R70). -/
def withRegs (i : Instr) (a b : Byte) (s : State) (handler : RegIdx → RegIdx → Except FatalError State) : Result :=
  settle s <|
    match checkReg i a s with
    | .error e => .error e
    | .ok ra =>
      match checkReg i b s with
      | .error e => .error e
      | .ok rb => handler ra rb

end Sys2Proof.Machine
end

