-- ==== Sys2Proof/Machine/Alu.lean ====
section
/-!
DEFINITION. ADD, MUL, MOD, AND, OR, XOR, NOT, SHL, SHR and CMP (R90 to R101).
-/
namespace Sys2Proof.Machine

/-- `(x + y) mod 256` (R91). -/
def aluAdd (x y : Byte) : Byte := BitVec.ofNat 8 ((x.toNat + y.toNat) % 256)

/-- `(x * y) mod 256` (R92). -/
def aluMul (x y : Byte) : Byte := BitVec.ofNat 8 ((x.toNat * y.toNat) % 256)

/-- `x mod y`, the remainder of the unsigned division, for `y` not 0 (R93). -/
def aluMod (x y : Byte) : Byte := BitVec.ofNat 8 (x.toNat % y.toNat)

/-- `(x * 2^n) mod 256` for the count `n`, the whole 8-bit value (R98, D6; UNVERIFIED, log 7). -/
def aluShl (x n : Byte) : Byte := BitVec.ofNat 8 ((x.toNat * 2 ^ n.toNat) % 256)

/-- `floor(x / 2^n)` for the count `n`, the whole 8-bit value (R99, D6; UNVERIFIED, log 7). -/
def aluShr (x n : Byte) : Byte := BitVec.ofNat 8 (x.toNat / 2 ^ n.toNat)

/-- A two-operand ALU instruction: both registers are read, the value is stored in the first, the pc advances by 3
(R90). -/
def storeAlu (value : Byte → Byte → Byte) (s : State) (ra rb : RegIdx) : Except FatalError State :=
  .ok ((s.setReg ra (value (s.reg ra) (s.reg rb))).advance 3)

/-- ADD a,b (R91). -/
def execAdd (a b : Byte) (s : State) : Result := withRegs (.add a b) a b s (storeAlu aluAdd s)

/-- MUL a,b (R92). -/
def execMul (a b : Byte) (s : State) : Result := withRegs (.mul a b) a b s (storeAlu aluMul s)

/-- MOD a,b (R93): a zero divisor raises DivideByZero with the two operand bytes. -/
def execMod (a b : Byte) (s : State) : Result :=
  withRegs (.mod a b) a b s fun ra rb =>
    if s.reg rb = 0#8 then .error (.divideByZero a b) else storeAlu aluMod s ra rb

/-- AND a,b (R94). -/
def execAnd (a b : Byte) (s : State) : Result := withRegs (.and a b) a b s (storeAlu (· &&& ·) s)

/-- OR a,b (R95). -/
def execOr (a b : Byte) (s : State) : Result := withRegs (.or a b) a b s (storeAlu (· ||| ·) s)

/-- XOR a,b (R96). -/
def execXor (a b : Byte) (s : State) : Result := withRegs (.xor a b) a b s (storeAlu (· ^^^ ·) s)

/-- NOT a (R97). -/
def execNot (a : Byte) (s : State) : Result :=
  withReg (.not a) a s fun ra => .ok ((s.setReg ra (~~~ s.reg ra)).advance 2)

/-- SHL a,b (R98): the shifted value is stored (C5). -/
def execShl (a b : Byte) (s : State) : Result := withRegs (.shl a b) a b s (storeAlu aluShl s)

/-- SHR a,b (R99): the shifted value is stored (C5). -/
def execShr (a b : Byte) (s : State) : Result := withRegs (.shr a b) a b s (storeAlu aluShr s)

/-- CMP a,b (R100). -/
def execCmp (a b : Byte) (s : State) : Result :=
  withRegs (.cmp a b) a b s fun ra rb => .ok ((s.setFl (compareFlags (s.reg ra) (s.reg rb))).advance 3)

end Sys2Proof.Machine
end

