-- ==== Sys2Proof/Machine/Jumps.lean ====
section
/-!
DEFINITION. JMP and the six conditional jumps (R105 to R113).
-/
namespace Sys2Proof.Machine

/-- A jump to the address in register `ra` when taken, the default advance by 2 when not (R105). -/
def jumpIf (taken : Bool) (s : State) (ra : RegIdx) : Except FatalError State :=
  .ok (if taken then s.jumpTo (s.reg ra) else s.advance 2)

/-- JMP a (R106). -/
def execJmp (a : Byte) (s : State) : Result := withReg (.jmp a) a s (jumpIf true s)

/-- JEQ a (R107). -/
def execJeq (a : Byte) (s : State) : Result := withReg (.jeq a) a s (jumpIf (condEq s.fl) s)

/-- JNE a (R108). -/
def execJne (a : Byte) (s : State) : Result := withReg (.jne a) a s (jumpIf (condNe s.fl) s)

/-- JGT a (R109). -/
def execJgt (a : Byte) (s : State) : Result := withReg (.jgt a) a s (jumpIf (condGt s.fl) s)

/-- JLT a (R110). -/
def execJlt (a : Byte) (s : State) : Result := withReg (.jlt a) a s (jumpIf (condLt s.fl) s)

/-- JGE a (R111). -/
def execJge (a : Byte) (s : State) : Result := withReg (.jge a) a s (jumpIf (condGe s.fl) s)

/-- JLE a (R112). -/
def execJle (a : Byte) (s : State) : Result := withReg (.jle a) a s (jumpIf (condLe s.fl) s)

end Sys2Proof.Machine
end

