-- ==== Sys2Proof/Machine/Stack.lean ====
section
/-!
DEFINITION. PUSH, POP, CALL and RET (R80 to R84). The statements of each are performed in the order written (D7).
-/
namespace Sys2Proof.Machine

/-- PUSH a (R81): the register is read after the decrement. -/
def execPush (a : Byte) (s : State) : Result :=
  withReg (.push a) a s fun ra => (pushByte (·.reg ra) s).map (·.advance 2)

/-- POP a (R82): the increment reads register 7 after the load. -/
def execPop (a : Byte) (s : State) : Result :=
  withReg (.pop a) a s fun ra => (topOfStack s).map fun v => (spInc (s.setReg ra v)).advance 2

/-- CALL a (R83): pushes `pc + 2`; the target register is read after the decrement. -/
def execCall (a : Byte) (s : State) : Result :=
  withReg (.call a) a s fun ra => (pushByte returnByte s).map fun t => t.jumpTo (t.reg ra)

/-- RET (R84). -/
def execRet (s : State) : Result :=
  settle s ((topOfStack s).map fun t => (spInc s).jumpTo t)

end Sys2Proof.Machine
end

