-- ==== Sys2Proof/Machine/System.lean ====
section
/-!
DEFINITION. HLT, LDI and PRN (R75 to R77).
-/
namespace Sys2Proof.Machine

/-- HLT (R75). -/
def execHlt (s : State) : Result := .next ((s.setRunning false).advance 1)

/-- LDI a,v (R76). -/
def execLdi (a v : Byte) (s : State) : Result :=
  withReg (.ldi a v) a s fun ra => .ok ((s.setReg ra v).advance 3)

/-- PRN a (R77). -/
def execPrn (a : Byte) (s : State) : Result :=
  withReg (.prn a) a s fun ra => .ok ((s.emit (s.reg ra)).advance 2)

end Sys2Proof.Machine
end

