-- ==== Sys2Proof/Machine/Step.lean ====
section
/-!
DEFINITION. One step of the core (R61 to R67, R70), and the placing of an instruction where the next step fetches.
-/
namespace Sys2Proof.Machine

/-- One step: no step when the core is stopped (R61; a fault, DESIGN CHOICE, log 1); otherwise fetch and dispatch,
where an error is raised, and the selected handler. -/
def step (s : State) : Host.Outcome State Fault Refusal :=
  match stepGuard s with
  | some f => .fault f
  | none =>
    match fetchInstr s with
    | .error e => .next (raise e s)
    | .ok i => exec i s

/-- The state whose very next step fetches and runs the instruction with bits `w`: its bytes lie at the program
counter (at 0 where the pc cannot be fetched from), the core is running and no error is latched. It stands for what
the loader and `run` do from outside (DESIGN CHOICE, log 15). -/
def State.withFetchWord (s : State) (nbits w : Nat) : State :=
  match wordBytes nbits w with
  | (b0, b1, b2) => placeWindow b0 b1 b2 s

end Sys2Proof.Machine
end

