-- ==== Sys2Proof/WellFormed.lean ====
section
/-!
DEFINITION. Which instructions are well-formed: every operand byte used as a register index is 0 to 7 (R47 to R49,
R53). LDI's immediate is any byte (R54). An ill-formed instruction is not rejected by the decoder: executing it
raises BadRegisterIndex (R66).
-/
namespace Sys2Proof

/-- A legal register operand byte: 0 to 7 (R53). -/
def regOperandOk (a : Byte) : Bool := a.toNat < 8

/-- The instruction's register operand bytes, in the order R66 checks them. -/
def Instr.regOperands : Instr → List Byte
  | .hlt => []
  | .ldi a _ => [a]
  | .prn a => [a]
  | .push a => [a]
  | .pop a => [a]
  | .call a => [a]
  | .ret => []
  | .add a b => [a, b]
  | .mul a b => [a, b]
  | .mod a b => [a, b]
  | .and a b => [a, b]
  | .or a b => [a, b]
  | .xor a b => [a, b]
  | .not a => [a]
  | .shl a b => [a, b]
  | .shr a b => [a, b]
  | .cmp a b => [a, b]
  | .jmp a => [a]
  | .jeq a => [a]
  | .jne a => [a]
  | .jgt a => [a]
  | .jlt a => [a]
  | .jge a => [a]
  | .jle a => [a]

/-- Every register operand byte is legal (R53). -/
def Instr.wellFormed (i : Instr) : Bool := i.regOperands.all regOperandOk

end Sys2Proof
end

