-- ==== Sys2Proof/Machine/Text.lean ====
section
/-!
DEFINITION. The text conventions at the edge of the core, transcribed for compatibility: the loader's lines (R57), the
sink's decimal lines (R78) and the assembly notation of one instruction (R56). No instruction depends on them.
-/
namespace Sys2Proof.Machine

/-! ## The loader's text (R57) -/

/-- The value of a binary digit. -/
def binaryDigit : Char → Option Nat
  | '0' => some 0
  | '1' => some 1
  | _ => none

/-- The first `n` characters read as a binary number, most significant bit first, after the digits of `acc`; none
where one is missing or is no binary digit. -/
def readBinary : Nat → Nat → List Char → Option Nat
  | 0, acc, _ => some acc
  | _ + 1, _, [] => none
  | n + 1, acc, c :: rest =>
    match binaryDigit c with
    | some b => readBinary n (2 * acc + b) rest
    | none => none

/-- What one line of a program text contributes (R57). -/
inductive LineReading where
  /-- Not significant: blank, or beginning with neither digit. -/
  | ignored
  /-- Significant: one byte. -/
  | byte (v : Byte)
  /-- Begins with a binary digit, but its first 8 characters are no binary literal: not covered (N14). -/
  | malformed
  deriving DecidableEq, Repr

/-- One line: significant when it begins with '0' or '1'; its first 8 characters are then the byte and the rest of the
line is ignored (R57). -/
def readLine : List Char → LineReading
  | [] => .ignored
  | c :: rest =>
    match binaryDigit c with
    | none => .ignored
    | some _ =>
      match readBinary 8 0 (c :: rest) with
      | some n => .byte (BitVec.ofNat 8 n)
      | none => .malformed

/-- The bytes of a program text in program order (R57); none where a line is malformed: the text is refused (U19,
log 20). -/
def loaderBytes : List (List Char) → Option (List Byte)
  | [] => some []
  | line :: rest =>
    match readLine line, loaderBytes rest with
    | .ignored, bytes => bytes
    | .byte v, some bytes => some (v :: bytes)
    | .byte _, none => none
    | .malformed, _ => none

/-! ## The sink's text (R78) -/

/-- The character of a decimal digit 0 to 9. -/
def decimalDigit : Nat → Char
  | 0 => '0'
  | 1 => '1'
  | 2 => '2'
  | 3 => '3'
  | 4 => '4'
  | 5 => '5'
  | 6 => '6'
  | 7 => '7'
  | 8 => '8'
  | _ => '9'

/-- A value as the sink writes it: unsigned decimal, no sign, no leading zeros (R78). -/
def sinkLine (v : Byte) : List Char :=
  let n := v.toNat
  if n < 10 then [decimalDigit n]
  else if n < 100 then [decimalDigit (n / 10), decimalDigit (n % 10)]
  else [decimalDigit (n / 100), decimalDigit (n / 10 % 10), decimalDigit (n % 10)]

/-- The lines the sink writes: one per value, in the order received (R78). -/
def sinkLines (out : List Byte) : List (List Char) := out.map sinkLine

/-! ## Assembly notation (R56) -/

/-- The mnemonic of an instruction (R50). -/
def mnemonicOf : Instr → String
  | .hlt => "HLT"
  | .ldi _ _ => "LDI"
  | .prn _ => "PRN"
  | .push _ => "PUSH"
  | .pop _ => "POP"
  | .call _ => "CALL"
  | .ret => "RET"
  | .add _ _ => "ADD"
  | .mul _ _ => "MUL"
  | .mod _ _ => "MOD"
  | .and _ _ => "AND"
  | .or _ _ => "OR"
  | .xor _ _ => "XOR"
  | .not _ => "NOT"
  | .shl _ _ => "SHL"
  | .shr _ _ => "SHR"
  | .cmp _ _ => "CMP"
  | .jmp _ => "JMP"
  | .jeq _ => "JEQ"
  | .jne _ => "JNE"
  | .jgt _ => "JGT"
  | .jlt _ => "JLT"
  | .jge _ => "JGE"
  | .jle _ => "JLE"

/-- `Ri` for the register operand byte `i` (R56). -/
def asmReg (a : Byte) : String := "R" ++ String.ofList (sinkLine a)

/-- The operands of an instruction as the spec writes them: `Ra`, `Ra,Rb`, or `Ra,v` for LDI, `v` in decimal, one of the
forms R56 allows (DESIGN CHOICE, log 20). -/
def asmOperands : Instr → List String
  | .ldi a v => [asmReg a, String.ofList (sinkLine v)]
  | i => i.regOperands.map asmReg

/-- The line that stands for an instruction (R56); none for one with an operand that names no register. -/
def asmLine (i : Instr) : Option String :=
  if i.wellFormed then
    match asmOperands i with
    | [] => some (mnemonicOf i)
    | [x] => some (mnemonicOf i ++ " " ++ x)
    | x :: y :: _ => some (mnemonicOf i ++ " " ++ x ++ "," ++ y)
  else none

end Sys2Proof.Machine
end

