-- ==== Sys2Proof/Machine/HostOps.lean ====
section
/-!
DEFINITION. What the host may do to a core that is not in the middle of `run` (R131): reset, load, run, observe; and
what the caller of `run` receives. None of these is part of `step`.
-/
namespace Sys2Proof.Machine

/-- reset (R140): every piece of state at its reset value; not in the middle of `run` (R131, logs 13 and 21). -/
def hostReset (s : State) : Result :=
  if coreActive s then .refused .resetWhileRunning else .next State.reset

/-- load (R144): the bytes go to addresses 0 upward and nothing else changes; on a stopped core only, and a sequence
longer than memory is refused as a whole (D11, log 22). That a core stopped by an error may be loaded is DEDUCED
(log 12). -/
def hostLoad (bytes : List Byte) (s : State) : Result :=
  if coreActive s then .refused .loadWhileRunning
  else if bytes.length ≤ Config.memSize then .next (s.setMem (Memory.writeAll s.mem Config.loadAddress bytes))
  else .refused .loadTooLong

/-- run (R60): exactly `running <- true`; refused when an error is latched or the core is running already (D10,
log 16). The steps that follow are those of `step`. -/
def hostRun (s : State) : Result :=
  match s.err with
  | some _ => .refused .runAfterError
  | none => if s.running then .refused .runWhileRunning else .next (s.setRunning true)

/-- observe (R131): the whole state of a core that is stopped; nothing of one that is running. -/
def hostObserve (s : State) : Option State := if coreActive s then none else some s

/-- What `run` has given its caller so far (R61, R71, log 24). -/
inductive RunResult where
  /-- The loop goes on. -/
  | stillRunning
  /-- No loop goes on and no error is latched: HLT ended it and `run` returned normally, or `run` has not been invoked
  since reset, for which R71 names no result (DESIGN CHOICE, log 24). -/
  | returned
  /-- A fatal error ended the loop and is surfaced. -/
  | failed (e : FatalError)
  deriving DecidableEq, Repr

/-- How the run stands in this state, by the state alone (R71). On a stopped core on which `run` was never invoked,
State.reset among them, R71 names no result, since it calls a run ended only after at least one step; the answer
`returned` there is the model's DESIGN CHOICE (log 24). -/
def runResult (s : State) : RunResult :=
  match s.err with
  | some e => .failed e
  | none => if s.running then .stillRunning else .returned

end Sys2Proof.Machine
end

