-- ==== Sys2Proof/Safety.lean ====
section
/-!
DEFINITION. The terms claims use: the invariant of the machine, what an instruction leaves unchanged, how it
completes or raises an error, and the runs of the machine.
-/
namespace Sys2Proof.Machine

/-! ## The invariant -/

/-- The pc is 0 to 256 (R13). -/
def pcLegal (s : State) : Prop := s.pc.toNat ≤ 256

/-- fl has zero or one of E, G, L set and bits 7 to 3 zero (R15). -/
def flLegal (s : State) : Prop := s.fl = 0x00#8 ∨ s.fl = 0x01#8 ∨ s.fl = 0x02#8 ∨ s.fl = 0x04#8

/-- An error leaves the running flag true (R16, R128). -/
def errWhileRunning (s : State) : Prop := s.err ≠ none → s.running = true

/-- The invariant every step keeps. -/
structure StateInv (s : State) : Prop where
  pc_legal : pcLegal s
  fl_legal : flLegal s
  err_running : errWhileRunning s
  mem_wf : Memory.wf s.mem = true

/-! ## Frames -/

/-- Every register but those listed is unchanged. -/
def sameRegsBut (changed : List RegIdx) (s t : State) : Prop := ∀ r, r ∉ changed → t.reg r = s.reg r

/-- Every byte of memory reads as before. -/
def sameMemory (s t : State) : Prop := ∀ a, Memory.read t.mem a = Memory.read s.mem a

/-- Every byte of memory but the one at `addr` reads as before. -/
def sameMemoryBut (addr : Nat) (s t : State) : Prop := ∀ a, a ≠ addr → Memory.read t.mem a = Memory.read s.mem a

/-- The flags are unchanged. -/
def sameFlags (s t : State) : Prop := t.fl = s.fl

/-- The running flag and the error latch are unchanged. -/
def sameControl (s t : State) : Prop := t.running = s.running ∧ t.err = s.err

/-- The output sequence is unchanged. -/
def sameOut (s t : State) : Prop := t.out = s.out

/-! ## Outcomes -/

/-- The instruction answers a next state with the property. -/
def Completes (i : Instr) (s : State) (post : State → Prop) : Prop := ∃ t, exec i s = .next t ∧ post t

/-- The instruction raises the error: a next state in which the latch holds it and nothing else has changed (R120).
That the answer is a next state is the model's inference (DEDUCED, log 2). -/
def Raises (i : Instr) (s : State) (e : FatalError) : Prop := exec i s = .next { s with err := some e }

/-- The instruction completes by storing the value `v` in register `d` and advancing the pc by `len`; nothing else
changes. -/
def StoresInReg (i : Instr) (s : State) (d : RegIdx) (v : Nat) (len : PcWord) : Prop :=
  Completes i s fun t =>
    (t.reg d).toNat = v ∧ t.pc = s.pc + len ∧
      sameRegsBut [d] s t ∧ sameFlags s t ∧ sameMemory s t ∧ sameControl s t ∧ sameOut s t

/-- The instruction completes with the pc at `target`; nothing else changes. -/
def OnlySetsPc (i : Instr) (s : State) (target : PcWord) : Prop :=
  Completes i s fun t =>
    t.pc = target ∧ sameRegsBut [] s t ∧ sameFlags s t ∧ sameMemory s t ∧ sameControl s t ∧ sameOut s t

/-- The instruction with one register operand is the opcode byte `op` and the operand byte (R47), and an operand byte
above 7 raises BadRegisterIndex (R66, the spec's decision D4). -/
def TakesOneRegister (mk : Byte → Instr) (op : Byte) : Prop :=
  ∀ (s : State) (a : Byte),
    encode (mk a) = [op, a] ∧ (7 < a.toNat → Raises (mk a) s (.badRegisterIndex op s.pc a))

/-- The instruction with two register operands is the opcode byte `op` and the two operand bytes (R48); a first operand
byte above 7, else a second one, raises BadRegisterIndex (R66, the spec's decision D4). -/
def TakesTwoRegisters (mk : Byte → Byte → Instr) (op : Byte) : Prop :=
  ∀ (s : State) (a b : Byte),
    encode (mk a b) = [op, a, b] ∧
      (7 < a.toNat → Raises (mk a b) s (.badRegisterIndex op s.pc a)) ∧
        (a.toNat ≤ 7 → 7 < b.toNat → Raises (mk a b) s (.badRegisterIndex op s.pc b))

/-! ## The tables of the spec, as lists -/

/-- The opcode bytes of format Z (R46, R50). -/
def opcodesZ : List Byte := [0x01#8, 0x11#8]

/-- The opcode bytes of formats R and RI: `opa` is a register index (R47, R49, R50). -/
def opcodesOneReg : List Byte :=
  [0x45#8, 0x46#8, 0x47#8, 0x50#8, 0x54#8, 0x55#8, 0x56#8, 0x57#8, 0x58#8, 0x59#8, 0x5A#8, 0x69#8, 0x82#8]

/-- The opcode bytes of format RR: `opa` and `opb` are register indices (R48, R50). -/
def opcodesTwoReg : List Byte :=
  [0xA0#8, 0xA2#8, 0xA4#8, 0xA7#8, 0xA8#8, 0xAA#8, 0xAB#8, 0xAC#8, 0xAD#8]

/-- The 24 opcode bytes (R50). -/
def opcodes : List Byte := opcodesZ ++ opcodesOneReg ++ opcodesTwoReg

/-- The control transfers (R14, R105): every instruction that can assign pc directly. -/
def isTransfer : Instr → Bool
  | .call _ | .ret | .jmp _ | .jeq _ | .jne _ | .jgt _ | .jlt _ | .jge _ | .jle _ => true
  | .hlt | .ldi _ _ | .prn _ | .push _ | .pop _ | .add _ _ | .mul _ _ | .mod _ _ | .and _ _ | .or _ _ | .xor _ _
  | .not _ | .shl _ _ | .shr _ _ | .cmp _ _ => false

/-- The ALU instructions other than CMP (R90, R101). -/
def isPlainAlu : Instr → Bool
  | .add _ _ | .mul _ _ | .mod _ _ | .and _ _ | .or _ _ | .xor _ _ | .not _ | .shl _ _ | .shr _ _ => true
  | .hlt | .ldi _ _ | .prn _ | .push _ | .pop _ | .call _ | .ret | .cmp _ _ | .jmp _ | .jeq _ | .jne _ | .jgt _
  | .jlt _ | .jge _ | .jle _ => false

/-- The registers an instruction may write: the "Writes" column of R11. -/
def mayWriteReg : Instr → RegIdx → Prop
  | .hlt, _ | .prn _, _ | .cmp _ _, _ | .jmp _, _ | .jeq _, _ | .jne _, _ | .jgt _, _ | .jlt _, _ | .jge _, _
  | .jle _, _ => False
  | .push _, r | .call _, r | .ret, r => r = Config.spIndex
  | .pop a, r => r = Config.spIndex ∨ a.toNat = r.val
  | .ldi a _, r | .not a, r | .add a _, r | .mul a _, r | .mod a _, r | .and a _, r | .or a _, r | .xor a _, r
  | .shl a _, r | .shr a _, r => a.toNat = r.val

/-- The byte `k` places after the program counter, as the fetch reads it. -/
def codeByte (s : State) (k : Nat) : Byte := Memory.read s.mem (s.pc.toNat + k)

/-- The error a step from `s` raises, read off the raw bytes in the order of R70 and R125: OutOfBounds, UnknownOpcode,
BadRegisterIndex on the first operand, on the second, DivideByZero; none when the instruction executes. -/
def firstError (s : State) : Option FatalError :=
  if 253 < s.pc.toNat then some (.outOfBounds (max s.pc.toNat 256))
  else if codeByte s 0 ∉ opcodes then some (.unknownOpcode (codeByte s 0) s.pc)
  else if codeByte s 0 ∉ opcodesZ ∧ 7 < (codeByte s 1).toNat then
    some (.badRegisterIndex (codeByte s 0) s.pc (codeByte s 1))
  else if codeByte s 0 ∈ opcodesTwoReg ∧ 7 < (codeByte s 2).toNat then
    some (.badRegisterIndex (codeByte s 0) s.pc (codeByte s 2))
  else if codeByte s 0 = 0xA4#8 ∧ ∃ r : RegIdx, r.val = (codeByte s 2).toNat ∧ s.reg r = 0#8 then
    some (.divideByZero (codeByte s 1) (codeByte s 2))
  else none

/-! ## Runs -/

/-- The states that zero or more steps lead to. -/
inductive Steps : State → State → Prop where
  | refl (s : State) : Steps s s
  | tail {s t u : State} (before : Steps s t) (last : step t = .next u) : Steps s u

/-- The host's `run` from `s` ends in `t`: running is set, steps follow, and `t` is where the loop ends (R60, R61).
There is no bound on the steps (R69). -/
def RunEnds (s t : State) : Prop := ∃ u, hostRun s = .next u ∧ Steps u t ∧ coreActive t = false

/-- The run has ended normally (R71). -/
def endedNormally (s : State) : Prop := s.running = false ∧ s.err = none

/-- The run has ended with a failure (R71). -/
def endedWithFailure (s : State) : Prop := s.err ≠ none

end Sys2Proof.Machine
end

