-- ==== Sys2Proof/Certificates/Slice0/Obligations.lean ====
section
/-!
DEFINITION. The statements for the provers, from the numbered rules of spec/. `regByte r` is the operand byte of the
register `r`; every operand byte 0 to 7 is one, and TakesOneRegister and TakesTwoRegisters say what the others do.
Every clause that BadRegisterIndex is raised rests on the spec's own decision D4 (log 5).
-/
open Sys2Proof
open Sys2Proof.Machine

/-! ## Reset and the invariant -/

/-- R21, R140: what reset leaves. The values of err and out are the spec's decisions D9 and D15. -/
def Obligations.ResetLeavesTheTabledValues : Prop :=
  (∀ r : RegIdx, State.reset.reg r = if r = 7 then 0xF4#8 else 0x00#8) ∧
    State.reset.pc = 0 ∧ State.reset.fl = 0 ∧ State.reset.running = false ∧ State.reset.err = none ∧
      (∀ a, Memory.read State.reset.mem a = 0) ∧ State.reset.out = []

/-- The invariant of R13, R15, R16 and the memory's form holds after reset. -/
def Obligations.ResetMeetsTheInvariant : Prop := StateInv State.reset

/-- Every step from any state that meets the invariant gives one that does: pc 0 to 256 (R13, the spec's decision D2),
at most one flag and no other bit of fl (R15), running true wherever an error is latched (R16), memory canonical. -/
def Obligations.EveryStepKeepsTheInvariant : Prop :=
  ∀ s t : State, StateInv s → step s = .next t → StateInv t

/-- The host's operations keep the invariant too (R131). -/
def Obligations.HostOperationsKeepTheInvariant : Prop :=
  ∀ s t : State, StateInv s →
    (hostReset s = .next t ∨ hostRun s = .next t ∨ ∃ bytes, hostLoad bytes s = .next t) → StateInv t

/-! ## Memory access -/

/-- R31. A read gives a value and no state, so it changes nothing. -/
def Obligations.MemReadGivesTheCellOrOutOfBounds : Prop :=
  ∀ (s : State) (a : Nat),
    (a ≤ 255 → memRead a s = .ok (Memory.read s.mem a)) ∧ (255 < a → memRead a s = .error (.outOfBounds a))

/-- R32, R39: a write stores one byte, which the next read of that address gives, and changes nothing else. -/
def Obligations.MemWriteStoresOneByteAndNothingElse : Prop :=
  ∀ (s : State) (a : Nat) (v : Byte),
    (a ≤ 255 → ∃ t, memWrite a v s = .ok t ∧ memRead a t = .ok v ∧ sameMemoryBut a s t ∧ sameRegsBut [] s t ∧
        t.pc = s.pc ∧ sameFlags s t ∧ sameControl s t ∧ sameOut s t) ∧
      (255 < a → memWrite a v s = .error (.outOfBounds a))

/-! ## Encoding -/

/-- R50: the 24 opcodes with their formats, lengths and operands, and no other opcode. -/
def Obligations.OpcodeMapIsTheTable : Prop :=
  (∀ a b : Byte,
    encode .hlt = [0x01#8] ∧ encode (.ldi a b) = [0x82#8, a, b] ∧ encode (.prn a) = [0x47#8, a] ∧
    encode (.push a) = [0x45#8, a] ∧ encode (.pop a) = [0x46#8, a] ∧ encode (.call a) = [0x50#8, a] ∧
    encode .ret = [0x11#8] ∧ encode (.add a b) = [0xA0#8, a, b] ∧ encode (.mul a b) = [0xA2#8, a, b] ∧
    encode (.mod a b) = [0xA4#8, a, b] ∧ encode (.and a b) = [0xA8#8, a, b] ∧ encode (.or a b) = [0xAA#8, a, b] ∧
    encode (.xor a b) = [0xAB#8, a, b] ∧ encode (.not a) = [0x69#8, a] ∧ encode (.shl a b) = [0xAC#8, a, b] ∧
    encode (.shr a b) = [0xAD#8, a, b] ∧ encode (.cmp a b) = [0xA7#8, a, b] ∧ encode (.jmp a) = [0x54#8, a] ∧
    encode (.jeq a) = [0x55#8, a] ∧ encode (.jne a) = [0x56#8, a] ∧ encode (.jgt a) = [0x57#8, a] ∧
    encode (.jlt a) = [0x58#8, a] ∧ encode (.jge a) = [0x5A#8, a] ∧ encode (.jle a) = [0x59#8, a]) ∧
  (∀ i : Instr, (formatOf i = .z ↔ opcodeOf i ∈ opcodesZ) ∧ (formatOf i = .ri ↔ opcodeOf i = 0x82#8) ∧
    (formatOf i = .rr ↔ opcodeOf i ∈ opcodesTwoReg) ∧ instrLength i = (encode i).length) ∧
  (opcodes.length = 24 ∧ opcodes.Nodup) ∧
  (∀ ir opa opb : Byte, (∃ i, decode ir opa opb = .ok i ∧ opcodeOf i = ir) ↔ ir ∈ opcodes)

/-- Decode and encode agree, both ways: three bytes decode to an instruction exactly when they begin with its bytes
(R33, R46 to R51), at every operand value. -/
def Obligations.DecodeAndEncodeAgree : Prop :=
  ∀ (ir opa opb : Byte) (i : Instr), decode ir opa opb = .ok i ↔ encode i <+: [ir, opa, opb]

/-- R45 and the observation R52: the length is 1 to 3, one plus the number of operand bytes, and a function of the
opcode byte; bits 7:6 count the operand bytes, bit 5 marks the ALU, bit 4 the control transfers. -/
def Obligations.OpcodeBitsMatchTheLength : Prop :=
  (∀ i : Instr, 1 ≤ instrLength i ∧ instrLength i ≤ 3 ∧ instrLength i = 1 + (operandBytes i).length ∧
    (opcodeOf i).toNat / 64 = (operandBytes i).length ∧
    ((opcodeOf i).getLsbD 5 = true ↔ isPlainAlu i = true ∨ ∃ a b, i = .cmp a b) ∧
    ((opcodeOf i).getLsbD 4 = true ↔ isTransfer i = true)) ∧
  ∀ i j : Instr, opcodeOf i = opcodeOf j → instrLength i = instrLength j

/-- R50: words written out bit by bit from the source's literals decode to their instructions, one of each family. -/
def Obligations.WrittenOutWordsDecode : Prop :=
  decode 0b10000010#8 0b00000000#8 0b00001000#8 = .ok (.ldi 0 8) ∧
    decode 0b01010000#8 0b00000001#8 0b00000000#8 = .ok (.call 1) ∧
      decode 0b10100010#8 0b00000000#8 0b00000001#8 = .ok (.mul 0 1) ∧
        decode 0b01011010#8 0b00000010#8 0b11111111#8 = .ok (.jge 2)

/-! ## The step -/

/-- R61, R62, R67: a running core with no error whose fetch window fits executes exactly the instruction its bytes
decode to; the step adds nothing around it. -/
def Obligations.StepRunsTheDecodedInstruction : Prop :=
  ∀ (s : State) (i : Instr), s.running = true → s.err = none → s.pc.toNat ≤ 253 →
    decode (codeByte s 0) (codeByte s 1) (codeByte s 2) = .ok i → step s = exec i s

/-- R62, R63 (the spec's decision D2): at pc 254, 255 and 256 the step raises OutOfBounds(256) whatever the bytes are;
at 253 and below no step raises OutOfBounds. -/
def Obligations.FetchWindowMustFitInMemory : Prop :=
  ∀ s : State, s.running = true → s.err = none →
    (254 ≤ s.pc.toNat ∧ s.pc.toNat ≤ 256 → step s = .next { s with err := some (.outOfBounds 256) }) ∧
      (s.pc.toNat ≤ 253 → ∃ t, step s = .next t ∧ ∀ a, t.err ≠ some (.outOfBounds a))

/-- R65: an opcode byte outside the 24 raises UnknownOpcode(ir, pc), and nothing else happens. The latch that holds the
error is the spec's decision D9. -/
def Obligations.UnknownOpcodeIsRaised : Prop :=
  ∀ s : State, s.running = true → s.err = none → s.pc.toNat ≤ 253 → codeByte s 0 ∉ opcodes →
    step s = .next { s with err := some (.unknownOpcode (codeByte s 0) s.pc) }

/-- R61, R67: a step gives a next state exactly while the core is running with no error latched. What it answers
otherwise, a fault of one of two names, is the model's choice (log 1). -/
def Obligations.CoreStepsExactlyWhileRunningWithoutError : Prop :=
  ∀ s : State,
    ((∃ t, step s = .next t) ↔ s.running = true ∧ s.err = none) ∧
      (∀ e, s.err = some e → step s = .fault (.fatalError e)) ∧
        (s.err = none → s.running = false → step s = .fault .notRunning)

/-- R70, R120, R125, R126: every step of a running, healthy core completes; the error it leaves latched is the first
that applies in the order OutOfBounds, UnknownOpcode, BadRegisterIndex on opa, on opb, DivideByZero, none if none
applies; and a step that raises changes nothing but the latch. The order's place for BadRegisterIndex is the spec's
decision D12, the fetch window D2, the index check D4. The model's own: that a step which raises answers a next state
(DEDUCED, log 2), and that the address raised at a pc above 256 is the pc itself (DESIGN CHOICE, log 3). -/
def Obligations.StepRaisesTheFirstErrorInOrder : Prop :=
  ∀ s : State, s.running = true → s.err = none →
    ∃ t, step s = .next t ∧ t.err = firstError s ∧ (firstError s ≠ none → t = { s with err := firstError s })

/-- R120, R126: an instruction that latches an error has changed nothing else. -/
def Obligations.FailingInstructionChangesNothing : Prop :=
  ∀ (i : Instr) (s t : State), s.err = none → exec i s = .next t → t.err ≠ none → t = { s with err := t.err }

/-! ## HLT, LDI, PRN -/

/-- R75: the handler's effect in every state; after it the loop has ended and a later `run` resumes at that pc; the
step that executes it looks at the byte at the pc alone, and the fetch raises OutOfBounds from pc 254 on. -/
def Obligations.HltStopsAndAdvancesByOne : Prop :=
  encode .hlt = [0x01#8] ∧
    (∀ s : State, Completes .hlt s fun t =>
      t.running = false ∧ t.pc = s.pc + 1 ∧ t.err = s.err ∧ sameRegsBut [] s t ∧ sameFlags s t ∧ sameMemory s t ∧
        sameOut s t ∧ coreActive t = false ∧ (s.err = none → hostRun t = .next { t with running := true })) ∧
      (∀ (i : Instr) (s t : State), exec i s = .next t → s.running = true → t.running = false → i = .hlt) ∧
        ∀ s : State, s.running = true → s.err = none → codeByte s 0 = 0x01#8 →
          (s.pc.toNat ≤ 253 → step s = exec .hlt s) ∧
            (254 ≤ s.pc.toNat ∧ s.pc.toNat ≤ 256 → step s = .next { s with err := some (.outOfBounds 256) })

/-- R76: the immediate is any byte and is never checked. -/
def Obligations.LdiLoadsTheImmediate : Prop :=
  (∀ (s : State) (a v : Byte), encode (.ldi a v) = [0x82#8, a, v] ∧
    (7 < a.toNat → Raises (.ldi a v) s (.badRegisterIndex 0x82#8 s.pc a))) ∧
    ∀ (s : State) (ra : RegIdx) (v : Byte), StoresInReg (.ldi (regByte ra) v) s ra v.toNat 3

/-- R77: the sink gains the value of x[a] as the last of its sequence (the hand-over is the spec's decision D15). -/
def Obligations.PrnHandsTheRegisterToTheSink : Prop :=
  TakesOneRegister .prn 0x47#8 ∧
    ∀ (s : State) (ra : RegIdx), Completes (.prn (regByte ra)) s fun t =>
      t.out = s.out ++ [s.reg ra] ∧ t.pc = s.pc + 2 ∧ sameRegsBut [] s t ∧ sameFlags s t ∧ sameMemory s t ∧
        sameControl s t

/-! ## PUSH, POP, CALL, RET -/

/-- R81: sp is decremented modulo 256 (the spec's decision D3), then x[a], read after the decrement (D7), is stored at
the new sp; PUSH 7 stores the decremented sp. -/
def Obligations.PushStoresBelowTheStackPointer : Prop :=
  TakesOneRegister .push 0x45#8 ∧
    ∀ (s : State) (ra : RegIdx), Completes (.push (regByte ra)) s fun t =>
      t.sp.toNat = (s.sp.toNat + 255) % 256 ∧ t.sp = (spDec s).sp ∧
        Memory.read t.mem (spDec s).sp.toNat = (if ra = 7 then t.sp else s.reg ra) ∧
          sameMemoryBut (spDec s).sp.toNat s t ∧ sameRegsBut [7] s t ∧ t.pc = s.pc + 2 ∧ sameFlags s t ∧
            sameControl s t ∧ sameOut s t

/-- R82: x[a] gets the byte at sp, then register 7 is incremented modulo 256 (D3) as the load left it (D7); POP 7
leaves the popped byte plus one. -/
def Obligations.PopLoadsFromTheStackPointer : Prop :=
  TakesOneRegister .pop 0x46#8 ∧
    ∀ (s : State) (ra : RegIdx), Completes (.pop (regByte ra)) s fun t =>
      (ra ≠ 7 → t.reg ra = Memory.read s.mem s.sp.toNat ∧ t.sp.toNat = (s.sp.toNat + 1) % 256) ∧
        (ra = 7 → t.sp.toNat = ((Memory.read s.mem s.sp.toNat).toNat + 1) % 256) ∧
          sameRegsBut [ra, 7] s t ∧ sameMemory s t ∧ t.pc = s.pc + 2 ∧ sameFlags s t ∧ sameControl s t ∧ sameOut s t

/-- R83: the return address pc + 2 is stored below sp (C2) and the pc becomes x[a], read after the decrement (D7). The
stored byte is pc + 2 itself wherever the CALL could be fetched, pc being at most 253. -/
def Obligations.CallPushesTheReturnAddressAndJumps : Prop :=
  TakesOneRegister .call 0x50#8 ∧
    ∀ (s : State) (ra : RegIdx), Completes (.call (regByte ra)) s fun t =>
      t.sp.toNat = (s.sp.toNat + 255) % 256 ∧ t.sp = (spDec s).sp ∧
        (Memory.read t.mem (spDec s).sp.toNat).toNat = (s.pc.toNat + 2) % 256 ∧
          sameMemoryBut (spDec s).sp.toNat s t ∧ sameRegsBut [7] s t ∧
            t.pc = (if ra = 7 then t.sp else s.reg ra).zeroExtend 9 ∧ sameFlags s t ∧ sameControl s t ∧ sameOut s t

/-- R84: the pc becomes the byte at sp, and sp is incremented modulo 256 (D3). -/
def Obligations.RetPopsTheProgramCounter : Prop :=
  encode .ret = [0x11#8] ∧
    ∀ s : State, Completes .ret s fun t =>
      t.pc = (Memory.read s.mem s.sp.toNat).zeroExtend 9 ∧ t.sp.toNat = (s.sp.toNat + 1) % 256 ∧
        sameRegsBut [7] s t ∧ sameMemory s t ∧ sameFlags s t ∧ sameControl s t ∧ sameOut s t

/-! ## ALU -/

/-- R91. -/
def Obligations.AddStoresTheSumModulo256 : Prop :=
  TakesTwoRegisters .add 0xA0#8 ∧
    ∀ (s : State) (ra rb : RegIdx), StoresInReg (.add (regByte ra) (regByte rb)) s ra
      (((s.reg ra).toNat + (s.reg rb).toNat) % 256) 3

/-- R92. -/
def Obligations.MulStoresTheProductModulo256 : Prop :=
  TakesTwoRegisters .mul 0xA2#8 ∧
    ∀ (s : State) (ra rb : RegIdx), StoresInReg (.mul (regByte ra) (regByte rb)) s ra
      (((s.reg ra).toNat * (s.reg rb).toNat) % 256) 3

/-- R93, R123: the remainder for a divisor that is not 0; DivideByZero with the two operand bytes for 0. -/
def Obligations.ModStoresTheRemainderOrRaises : Prop :=
  TakesTwoRegisters .mod 0xA4#8 ∧
    ∀ (s : State) (ra rb : RegIdx),
      (s.reg rb ≠ 0 → StoresInReg (.mod (regByte ra) (regByte rb)) s ra ((s.reg ra).toNat % (s.reg rb).toNat) 3) ∧
        (s.reg rb = 0 → Raises (.mod (regByte ra) (regByte rb)) s (.divideByZero (regByte ra) (regByte rb)))

/-- R94, R95, R96: bit k of the result is 1 when bit k of both, of at least one, of exactly one operand is 1. -/
def Obligations.AndOrXorWorkBitByBit : Prop :=
  TakesTwoRegisters .and 0xA8#8 ∧ TakesTwoRegisters .or 0xAA#8 ∧ TakesTwoRegisters .xor 0xAB#8 ∧
    ∀ (s : State) (ra rb : RegIdx), ∃ v w x : Byte,
      (∀ k, v.getLsbD k = ((s.reg ra).getLsbD k && (s.reg rb).getLsbD k)) ∧
      (∀ k, w.getLsbD k = ((s.reg ra).getLsbD k || (s.reg rb).getLsbD k)) ∧
      (∀ k, x.getLsbD k = ((s.reg ra).getLsbD k != (s.reg rb).getLsbD k)) ∧
      StoresInReg (.and (regByte ra) (regByte rb)) s ra v.toNat 3 ∧
      StoresInReg (.or (regByte ra) (regByte rb)) s ra w.toNat 3 ∧
      StoresInReg (.xor (regByte ra) (regByte rb)) s ra x.toNat 3

/-- R97: the complement within 8 bits, 255 minus the value. -/
def Obligations.NotStoresTheComplement : Prop :=
  TakesOneRegister .not 0x69#8 ∧
    ∀ (s : State) (ra : RegIdx), StoresInReg (.not (regByte ra)) s ra (255 - (s.reg ra).toNat) 2

/-- R98, R99: the count is the whole value of x[b]; that 8 or more gives 0 is the spec's decision D6. -/
def Obligations.ShiftsStoreTheLogicalShift : Prop :=
  TakesTwoRegisters .shl 0xAC#8 ∧ TakesTwoRegisters .shr 0xAD#8 ∧
    ∀ (s : State) (ra rb : RegIdx),
      StoresInReg (.shl (regByte ra) (regByte rb)) s ra (((s.reg ra).toNat * 2 ^ (s.reg rb).toNat) % 256) 3 ∧
        StoresInReg (.shr (regByte ra) (regByte rb)) s ra ((s.reg ra).toNat / 2 ^ (s.reg rb).toNat) 3

/-- R100: exactly one of E (0x01), G (0x02), L (0x04) is left, by the unsigned comparison of x[a] with x[b]. The bit
positions are the spec's decision D5, the word unsigned its D13. -/
def Obligations.CmpLeavesExactlyTheMatchingFlag : Prop :=
  TakesTwoRegisters .cmp 0xA7#8 ∧
    ∀ (s : State) (ra rb : RegIdx), Completes (.cmp (regByte ra) (regByte rb)) s fun t =>
      t.fl = (if (s.reg ra).toNat = (s.reg rb).toNat then 0x01#8
        else if (s.reg ra).toNat > (s.reg rb).toNat then 0x02#8 else 0x04#8) ∧
        t.pc = s.pc + 3 ∧ sameRegsBut [] s t ∧ sameMemory s t ∧ sameControl s t ∧ sameOut s t

/-! ## Jumps -/

/-- R106. -/
def Obligations.JmpAssignsTheRegister : Prop :=
  TakesOneRegister .jmp 0x54#8 ∧
    ∀ (s : State) (ra : RegIdx), OnlySetsPc (.jmp (regByte ra)) s ((s.reg ra).zeroExtend 9)

/-- R107, R108: JEQ is taken when E is 1, JNE when E is 0, whatever G and L are (C6). -/
def Obligations.JeqAndJneTestTheEqualBit : Prop :=
  TakesOneRegister .jeq 0x55#8 ∧ TakesOneRegister .jne 0x56#8 ∧
    ∀ (s : State) (ra : RegIdx),
      OnlySetsPc (.jeq (regByte ra)) s (if s.fl.getLsbD 0 = true then (s.reg ra).zeroExtend 9 else s.pc + 2) ∧
        OnlySetsPc (.jne (regByte ra)) s (if s.fl.getLsbD 0 = false then (s.reg ra).zeroExtend 9 else s.pc + 2)

/-- R109, R110. -/
def Obligations.JgtAndJltTestTheirBit : Prop :=
  TakesOneRegister .jgt 0x57#8 ∧ TakesOneRegister .jlt 0x58#8 ∧
    ∀ (s : State) (ra : RegIdx),
      OnlySetsPc (.jgt (regByte ra)) s (if s.fl.getLsbD 1 = true then (s.reg ra).zeroExtend 9 else s.pc + 2) ∧
        OnlySetsPc (.jlt (regByte ra)) s (if s.fl.getLsbD 2 = true then (s.reg ra).zeroExtend 9 else s.pc + 2)

/-- R111, R112. -/
def Obligations.JgeAndJleTestEitherOfTwoBits : Prop :=
  TakesOneRegister .jge 0x5A#8 ∧ TakesOneRegister .jle 0x59#8 ∧
    ∀ (s : State) (ra : RegIdx),
      OnlySetsPc (.jge (regByte ra)) s
          (if s.fl.getLsbD 0 = true ∨ s.fl.getLsbD 1 = true then (s.reg ra).zeroExtend 9 else s.pc + 2) ∧
        OnlySetsPc (.jle (regByte ra)) s
          (if s.fl.getLsbD 0 = true ∨ s.fl.getLsbD 2 = true then (s.reg ra).zeroExtend 9 else s.pc + 2)

/-- R113: JMP is always taken; after CMP a,b each conditional jump is taken exactly by the unsigned comparison it is named
after; and with fl = 0, its reset value, JNE alone of the six is taken. The last two are inferences the spec marks as
derived. -/
def Obligations.ConditionalJumpsFollowTheComparison : Prop :=
  (∀ (s : State) (ra rb rc : RegIdx), ∃ t, exec (.cmp (regByte ra) (regByte rb)) s = .next t ∧
    let x := (s.reg ra).toNat
    let y := (s.reg rb).toNat
    let target := (s.reg rc).zeroExtend 9
    OnlySetsPc (.jmp (regByte rc)) t target ∧ OnlySetsPc (.jeq (regByte rc)) t (if x = y then target else t.pc + 2) ∧
      OnlySetsPc (.jne (regByte rc)) t (if x ≠ y then target else t.pc + 2) ∧
        OnlySetsPc (.jgt (regByte rc)) t (if x > y then target else t.pc + 2) ∧
          OnlySetsPc (.jlt (regByte rc)) t (if x < y then target else t.pc + 2) ∧
            OnlySetsPc (.jge (regByte rc)) t (if x ≥ y then target else t.pc + 2) ∧
              OnlySetsPc (.jle (regByte rc)) t (if x ≤ y then target else t.pc + 2)) ∧
  ∀ (s : State) (rc : RegIdx), s.fl = 0 →
    OnlySetsPc (.jmp (regByte rc)) s ((s.reg rc).zeroExtend 9) ∧
      OnlySetsPc (.jne (regByte rc)) s ((s.reg rc).zeroExtend 9) ∧ OnlySetsPc (.jeq (regByte rc)) s (s.pc + 2) ∧
      OnlySetsPc (.jgt (regByte rc)) s (s.pc + 2) ∧ OnlySetsPc (.jlt (regByte rc)) s (s.pc + 2) ∧
        OnlySetsPc (.jge (regByte rc)) s (s.pc + 2) ∧ OnlySetsPc (.jle (regByte rc)) s (s.pc + 2)

/-! ## Rules of the whole machine -/

/-- No instruction stops the model: every one answers a next state in every state. For an instruction that completes
this is R67; that one which raises a fatal error, R67's third outcome, answers a next state too, with the error latched,
and never a fault is the model's inference (DEDUCED, log 2). -/
def Obligations.EveryInstructionAnswersANextState : Prop :=
  ∀ (i : Instr) (s : State), ∃ t, exec i s = .next t

/-- R66 (the spec's decision D4): the first register operand byte above 7 is raised before any effect; with none, no
BadRegisterIndex is raised. -/
def Obligations.RegisterOperandsAreValidatedFirst : Prop :=
  ∀ (i : Instr) (s : State),
    match i.regOperands.find? (fun a => decide (7 < a.toNat)) with
    | some x => Raises i s (.badRegisterIndex (opcodeOf i) s.pc x)
    | none => i.wellFormed = true ∧
        (s.err = none → Completes i s fun t => ∀ op p x, t.err ≠ some (.badRegisterIndex op p x))

/-- R14 (the spec's decision D2): an instruction that completes without an error advances pc by its length, without
wrapping, unless it is a control transfer, which leaves an address 0 to 255. -/
def Obligations.PcAdvancesByTheLength : Prop :=
  ∀ (i : Instr) (s t : State), s.pc.toNat ≤ 253 → exec i s = .next t → t.err = none →
    (isTransfer i = false → t.pc.toNat = s.pc.toNat + instrLength i) ∧ (isTransfer i = true → t.pc.toNat ≤ 255)

/-- R37, R38: a step writes at most one cell, and only PUSH and CALL write one: the cell below the old sp. -/
def Obligations.OnlyPushAndCallWriteMemory : Prop :=
  ∀ s t : State, step s = .next t →
    sameMemory s t ∨ ((codeByte s 0 = 0x45#8 ∨ codeByte s 0 = 0x50#8) ∧ sameMemoryBut (spDec s).sp.toNat s t)

/-- R11, the Writes column: an instruction changes no register that the column does not list for it. -/
def Obligations.RegisterWritesFollowTheTable : Prop :=
  ∀ (i : Instr) (s t : State), exec i s = .next t → ∀ r, ¬ mayWriteReg i r → t.reg r = s.reg r

/-- R101: ADD, MUL, MOD, AND, OR, XOR, NOT, SHL and SHR neither read nor write fl, and CMP writes no register. -/
def Obligations.OnlyCmpOfTheAluTouchesTheFlags : Prop :=
  (∀ (i : Instr) (s t : State), isPlainAlu i = true → exec i s = .next t →
    t.fl = s.fl ∧ ∀ f : Byte, exec i { s with fl := f } = .next { t with fl := f }) ∧
  ∀ (a b : Byte) (s t : State), exec (.cmp a b) s = .next t → ∀ r, t.reg r = s.reg r

/-- R15: a step that changes fl executed a CMP. -/
def Obligations.OnlyCmpChangesTheFlags : Prop :=
  ∀ s t : State, step s = .next t → t.fl ≠ s.fl → s.pc.toNat ≤ 253 ∧ codeByte s 0 = 0xA7#8

/-- R77, R78: the output grows only by PRN, by one value, the register it names. -/
def Obligations.OnlyPrnExtendsTheOutput : Prop :=
  ∀ s t : State, step s = .next t →
    t.out = s.out ∨ (codeByte s 0 = 0x47#8 ∧ ∃ r : RegIdx, r.val = (codeByte s 1).toNat ∧ t.out = s.out ++ [s.reg r])

/-- R78: the core never reads out: what the sink has received before makes no difference to a step. -/
def Obligations.OutputIsNeverRead : Prop :=
  ∀ s t : State, step s = .next t → ∀ earlier : List Byte,
    step { s with out := earlier ++ s.out } = .next { t with out := earlier ++ t.out }

/-- R16: running is false after reset, set by `run`, cleared by HLT and by nothing else, an error included; no
instruction reads it; the core steps only while it is true. -/
def Obligations.OnlyHltClearsRunning : Prop :=
  State.reset.running = false ∧
    (∀ s t : State, hostRun s = .next t → t.running = true) ∧
      (∀ (i : Instr) (s t : State), exec i s = .next t → t.running = if i = .hlt then false else s.running) ∧
        (∀ s t : State, step s = .next t → t.err ≠ none → t.running = true) ∧
          (∀ (i : Instr) (s t : State) (b : Bool), exec i s = .next t →
            exec i { s with running := b } = .next { t with running := if i = .hlt then false else b }) ∧
            ∀ s t : State, step s = .next t → s.running = true

/-- R41: within the fetch window of the step after a PUSH, the cell it wrote reads as the byte it wrote and every
other cell as before. -/
def Obligations.FetchSeesAPushedByte : Prop :=
  ∀ (s t : State) (ra : RegIdx), s.pc.toNat ≤ 251 → exec (.push (regByte ra)) s = .next t →
    let seen := fun k =>
      if t.pc.toNat + k = (spDec s).sp.toNat then (spDec s).reg ra else Memory.read s.mem (t.pc.toNat + k)
    fetch t = .ok (seen 0, seen 1, seen 2)

/-! ## The stack round trips (R85) -/

/-- R85 (a): PUSH then POP of the same register restores every register and the stack pointer, for index 7 too. -/
def Obligations.PushThenPopRestoresTheRegisters : Prop :=
  ∀ (s : State) (r : RegIdx), ∃ t u, exec (.push (regByte r)) s = .next t ∧ exec (.pop (regByte r)) t = .next u ∧
    (∀ q, u.reg q = s.reg q) ∧ u.pc = s.pc + 4

/-- R85 (b): a RET in any later state whose sp and whose cell at sp are as the CALL left them resumes just after the
CALL, at its address plus 2 (C2), with the stack pointer as it was before the CALL. -/
def Obligations.ReturnResumesAfterTheCall : Prop :=
  ∀ (s t u : State) (r : RegIdx), s.pc.toNat ≤ 253 → exec (.call (regByte r)) s = .next t →
    u.sp = t.sp → Memory.read u.mem u.sp.toNat = Memory.read t.mem t.sp.toNat →
      ∃ w, exec .ret u = .next w ∧ w.pc.toNat = s.pc.toNat + 2 ∧ w.sp = s.sp

/-- R85 (c): one round of CALL, PUSH, POP, RET leaves every register as it was and resumes after the CALL, so no
number of rounds drifts. -/
def Obligations.BalancedRoundLeavesTheRegisters : Prop :=
  ∀ (s : State) (c r : RegIdx), s.pc.toNat ≤ 253 →
    ∃ t u v w, exec (.call (regByte c)) s = .next t ∧ exec (.push (regByte r)) t = .next u ∧
      exec (.pop (regByte r)) u = .next v ∧ exec .ret v = .next w ∧
        (∀ q, w.reg q = s.reg q) ∧ w.pc.toNat = s.pc.toNat + 2

/-! ## The host -/

/-- R60 (the spec's decision D10, log 16): run sets running and nothing else, on a stopped core with no error; it is
refused while an error is latched and while the core is running. -/
def Obligations.RunSetsRunningOrIsRefused : Prop :=
  ∀ s : State,
    (s.err = none → s.running = false → hostRun s = .next { s with running := true }) ∧
      (s.err ≠ none → hostRun s = .refused .runAfterError) ∧
        (s.err = none → s.running = true → hostRun s = .refused .runWhileRunning)

/-- R144 (the spec's decision D11, log 22; the load of a core stopped by an error is the model's inference, log 12): a
load of at most 256 bytes on a stopped core places them from address 0 and changes nothing else; a longer one is
refused as a whole. -/
def Obligations.LoadPlacesTheBytesFromZero : Prop :=
  ∀ (s : State) (bytes : List Byte), coreActive s = false →
    (bytes.length ≤ 256 → ∃ t, hostLoad bytes s = .next t ∧
      (∀ (k : Nat) (h : k < bytes.length), Memory.read t.mem k = bytes[k]) ∧
        (∀ a, bytes.length ≤ a → Memory.read t.mem a = Memory.read s.mem a) ∧
          sameRegsBut [] s t ∧ t.pc = s.pc ∧ sameFlags s t ∧ sameControl s t ∧ sameOut s t) ∧
      (256 < bytes.length → hostLoad bytes s = .refused .loadTooLong)

/-- R143, R129: run with nothing loaded stops at once with UnknownOpcode(0x00, 0); after that the core takes no step,
for which the model's step answers a fault (log 1), and run is refused. -/
def Obligations.RunOfAnUnloadedMachineStopsAtOnce : Prop :=
  ∃ s t : State, hostRun State.reset = .next s ∧ step s = .next t ∧
    t = { s with err := some (.unknownOpcode 0x00 0) } ∧ step t = .fault (.fatalError (.unknownOpcode 0x00 0)) ∧
      hostRun t = .refused .runAfterError

/-- R127, R131 (the spec's decision D17, log 13): against a core in the middle of run the host has no operation; on a
stopped one reset gives the reset state and observe the whole state. -/
def Obligations.HostActsOnlyOnAStoppedCore : Prop :=
  ∀ s : State,
    (s.running = true ∧ s.err = none → hostReset s = .refused .resetWhileRunning ∧
      (∀ bytes, hostLoad bytes s = .refused .loadWhileRunning) ∧ hostRun s = .refused .runWhileRunning ∧
        hostObserve s = none) ∧
      (s.running = false ∨ s.err ≠ none → hostReset s = .next State.reset ∧ hostObserve s = some s)

/-- R60 (the spec's decision D10): after a HLT, run resumes at the pc the HLT left. -/
def Obligations.RunResumesAfterHlt : Prop :=
  ∀ s t : State, step s = .next t → t.running = false →
    t.pc.toNat = s.pc.toNat + 1 ∧ hostRun t = .next { t with running := true }

/-- R71: a run ends in one of two ways only. Normally: running is false, no error is latched, the last step executed a
HLT, and pc is just past it. With a failure: an error is latched, running is still true, and the state but for the
latch is the one the failing step began in, its pc at the failing instruction. -/
def Obligations.EveryRunEndsByHltOrByAnError : Prop :=
  ∀ s t : State, RunEnds s t →
    (endedNormally t ∧ ∃ v, step v = .next t ∧ codeByte v 0 = 0x01#8 ∧ t.pc.toNat = v.pc.toNat + 1) ∨
      (endedWithFailure t ∧ t.running = true ∧ step { t with err := none } = .next t)

/-! ## The text at the edge of the core -/

/-- R78: the sink's line is the value in decimal: its digits read back as the value, without sign or leading zeros. -/
def Obligations.SinkLineIsTheDecimalValue : Prop :=
  ∀ v : Byte,
    (sinkLine v).foldl (fun n c => 10 * n + (c.toNat - 48)) 0 = v.toNat ∧
      (∀ c ∈ sinkLine v, c.isDigit = true) ∧ (v = 0 ∧ sinkLine v = ['0'] ∨ (sinkLine v).head? ≠ some '0')

/-- R57: a line that begins with the 8 binary digits of a byte, most significant first, contributes that byte,
whatever follows on the line; a line that begins with neither digit contributes nothing. -/
def Obligations.LoaderLineGivesItsByte : Prop :=
  (∀ (v : Byte) (rest : List Char),
    readLine (List.ofFn (fun k : Fin 8 => if v.getMsbD k.val then '1' else '0') ++ rest) = .byte v) ∧
  ∀ (c : Char) (rest : List Char), c ≠ '0' → c ≠ '1' → readLine (c :: rest) = .ignored
end

