-- ==== Sys2Proof/Laws/Memory.lean ====
section
/-!
SUPPORT. The laws of memory: a read after a write, and the canonical form, which every operation keeps and which makes
equal memories equal lists.
-/
namespace Sys2Proof.Machine

/-! ## Reading after writing -/

theorem Memory.read_insert (m : Memory) (a b : Nat) (v : Byte) :
    Memory.read (Memory.insert m a v) b = if b = a then v else Memory.read m b := by
  induction m with
  | nil => rfl
  | cons c rest ih =>
    obtain ⟨k, w⟩ := c
    simp only [Memory.insert]
    split
    · rfl
    split
    · rename_i _ h
      subst h
      simp only [Memory.read]
      split <;> rfl
    · rename_i _ h
      simp only [Memory.read, ih]
      by_cases hb : b = k
      · subst hb
        simp [Ne.symm h]
      · simp [hb]

theorem Memory.read_erase (m : Memory) (a b : Nat) :
    Memory.read (Memory.erase m a) b = if b = a then 0#8 else Memory.read m b := by
  induction m with
  | nil => simp [Memory.erase, Memory.read]
  | cons c rest ih =>
    obtain ⟨k, w⟩ := c
    simp only [Memory.erase] at ih ⊢
    by_cases hk : k = a
    · subst hk
      simp only [List.filter_cons, bne_self_eq_false, Bool.false_eq_true, if_false, ih, Memory.read]
      split <;> simp_all
    · have : (k != a) = true := by simpa using hk
      simp only [List.filter_cons, this, if_true, Memory.read, ih]
      by_cases hb : b = k
      · subst hb
        simp [hk]
      · simp [hb]

/-- A read after a write gives the byte written, and every other address reads as before (R31, R32, R39). -/
theorem Memory.read_write (m : Memory) (a b : Nat) (v : Byte) :
    Memory.read (Memory.write m a v) b = if b = a then v else Memory.read m b := by
  unfold Memory.write
  split
  · rename_i h
    rw [Memory.read_erase, h]
  · exact Memory.read_insert m a b v

@[simp] theorem Memory.read_write_same (m : Memory) (a : Nat) (v : Byte) :
    Memory.read (Memory.write m a v) a = v := by
  simp [Memory.read_write]

theorem Memory.read_write_ne (m : Memory) {a b : Nat} (v : Byte) (h : b ≠ a) :
    Memory.read (Memory.write m a v) b = Memory.read m b := by
  simp [Memory.read_write, h]

@[simp] theorem Memory.read_nil (a : Nat) : Memory.read [] a = 0#8 := rfl

/-- Loading places the bytes one after another and leaves every other address alone (R144). -/
theorem Memory.read_writeAll (bytes : List Byte) (m : Memory) (a b : Nat) :
    Memory.read (Memory.writeAll m a bytes) b =
      if h : a ≤ b ∧ b - a < bytes.length then bytes[b - a]'h.2 else Memory.read m b := by
  induction bytes generalizing m a with
  | nil => simp [Memory.writeAll]
  | cons v rest ih =>
    rw [Memory.writeAll, ih, Memory.read_write]
    by_cases hb : b = a
    · subst hb
      simp
    · by_cases hlt : a + 1 ≤ b
      · obtain ⟨d, rfl⟩ : ∃ d, b = a + 1 + d := ⟨b - (a + 1), by omega⟩
        have h1 : a + 1 + d - (a + 1) = d := by omega
        have h2 : a + 1 + d - a = d + 1 := by omega
        simp [h1, h2, show a ≤ a + 1 + d by omega, show a + 1 + d ≠ a by omega]
      · have : ¬ a ≤ b := by omega
        simp [hb, hlt, this]

/-! ## The canonical form -/

@[simp] theorem Memory.wfFrom_nil (lo : Nat) : Memory.wfFrom lo [] = true := rfl

theorem Memory.wfFrom_cons (lo k : Nat) (w : Byte) (rest : Memory) :
    Memory.wfFrom lo ((k, w) :: rest) = true ↔
      lo ≤ k ∧ k < Config.memSize ∧ w ≠ 0#8 ∧ Memory.wfFrom (k + 1) rest = true := by
  simp [Memory.wfFrom, and_assoc]

theorem Memory.wfFrom_mono {m : Memory} {lo lo' : Nat} (h : Memory.wfFrom lo m = true) (hle : lo' ≤ lo) :
    Memory.wfFrom lo' m = true := by
  cases m with
  | nil => rfl
  | cons c rest =>
    obtain ⟨k, w⟩ := c
    rw [Memory.wfFrom_cons] at h ⊢
    exact ⟨le_trans hle h.1, h.2⟩

theorem Memory.wfFrom_erase {m : Memory} {lo : Nat} (a : Nat) (h : Memory.wfFrom lo m = true) :
    Memory.wfFrom lo (Memory.erase m a) = true := by
  induction m generalizing lo with
  | nil => rfl
  | cons c rest ih =>
    obtain ⟨k, w⟩ := c
    rw [Memory.wfFrom_cons] at h
    simp only [Memory.erase, List.filter_cons] at ih ⊢
    split
    · rw [Memory.wfFrom_cons]
      exact ⟨h.1, h.2.1, h.2.2.1, ih h.2.2.2⟩
    · exact Memory.wfFrom_mono (ih h.2.2.2) (by omega)

theorem Memory.wfFrom_insert {m : Memory} {lo a : Nat} {v : Byte} (h : Memory.wfFrom lo m = true)
    (hlo : lo ≤ a) (ha : a < Config.memSize) (hv : v ≠ 0#8) :
    Memory.wfFrom lo (Memory.insert m a v) = true := by
  induction m generalizing lo with
  | nil => simp [Memory.insert, Memory.wfFrom_cons, hlo, ha, hv]
  | cons c rest ih =>
    obtain ⟨k, w⟩ := c
    rw [Memory.wfFrom_cons] at h
    simp only [Memory.insert]
    split
    · rename_i hak
      rw [Memory.wfFrom_cons, Memory.wfFrom_cons]
      exact ⟨hlo, ha, hv, hak, h.2.1, h.2.2.1, h.2.2.2⟩
    split
    · rename_i _ hk
      subst hk
      rw [Memory.wfFrom_cons]
      exact ⟨hlo, ha, hv, h.2.2.2⟩
    · rw [Memory.wfFrom_cons]
      exact ⟨h.1, h.2.1, h.2.2.1, ih h.2.2.2 (by omega)⟩

theorem Memory.wf_nil : Memory.wf [] = true := rfl

/-- Storing a byte keeps the canonical form. -/
theorem Memory.wf_write {m : Memory} {a : Nat} {v : Byte} (h : Memory.wf m = true) (ha : a < Config.memSize) :
    Memory.wf (Memory.write m a v) = true := by
  unfold Memory.write
  split
  · exact Memory.wfFrom_erase a h
  · rename_i hv
    exact Memory.wfFrom_insert h (Nat.zero_le a) ha hv

/-- Storing bytes that fit keeps the canonical form. -/
theorem Memory.wf_writeAll {m : Memory} {a : Nat} {bytes : List Byte} (h : Memory.wf m = true)
    (hfit : a + bytes.length ≤ Config.memSize) : Memory.wf (Memory.writeAll m a bytes) = true := by
  induction bytes generalizing m a with
  | nil => exact h
  | cons v rest ih =>
    simp only [List.length_cons] at hfit
    exact ih (Memory.wf_write h (by omega)) (by omega)

theorem Memory.read_of_lt_wfFrom {m : Memory} {lo a : Nat} (h : Memory.wfFrom lo m = true) (ha : a < lo) :
    Memory.read m a = 0#8 := by
  induction m generalizing lo with
  | nil => rfl
  | cons c rest ih =>
    obtain ⟨k, w⟩ := c
    rw [Memory.wfFrom_cons] at h
    rw [Memory.read, if_neg (by omega)]
    exact ih h.2.2.2 (by omega)

theorem Memory.eq_of_wfFrom {m n : Memory} {lo : Nat} (hm : Memory.wfFrom lo m = true)
    (hn : Memory.wfFrom lo n = true) (h : ∀ a, Memory.read m a = Memory.read n a) : m = n := by
  induction m generalizing n lo with
  | nil =>
    cases n with
    | nil => rfl
    | cons d rest =>
      obtain ⟨k, w⟩ := d
      rw [Memory.wfFrom_cons] at hn
      have := h k
      simp only [Memory.read, if_true] at this
      exact absurd this.symm hn.2.2.1
  | cons c rest ih =>
    obtain ⟨k, w⟩ := c
    rw [Memory.wfFrom_cons] at hm
    cases n with
    | nil =>
      have := h k
      simp only [Memory.read, if_true] at this
      exact absurd this hm.2.2.1
    | cons d rest' =>
      obtain ⟨k', w'⟩ := d
      rw [Memory.wfFrom_cons] at hn
      have hk : k = k' := by
        rcases Nat.lt_trichotomy k k' with hlt | heq | hgt
        · have := h k
          rw [Memory.read, if_pos rfl, Memory.read, if_neg (by omega),
            Memory.read_of_lt_wfFrom hn.2.2.2 (by omega)] at this
          exact absurd this hm.2.2.1
        · exact heq
        · have := h k'
          rw [Memory.read, if_neg (by omega), Memory.read_of_lt_wfFrom hm.2.2.2 (by omega), Memory.read,
            if_pos rfl] at this
          exact absurd this.symm hn.2.2.1
      subst hk
      have hw : w = w' := by
        have := h k
        simpa [Memory.read] using this
      subst hw
      congr 1
      refine ih hm.2.2.2 hn.2.2.2 fun a => ?_
      by_cases ha : a = k
      · rw [Memory.read_of_lt_wfFrom hm.2.2.2 (by omega), Memory.read_of_lt_wfFrom hn.2.2.2 (by omega)]
      · have := h a
        rwa [Memory.read, if_neg ha, Memory.read, if_neg ha] at this

/-- Canonical memories that read the same everywhere are the same list. -/
theorem Memory.eq_of_wf {m n : Memory} (hm : Memory.wf m = true) (hn : Memory.wf n = true)
    (h : ∀ a, Memory.read m a = Memory.read n a) : m = n :=
  Memory.eq_of_wfFrom hm hn h

end Sys2Proof.Machine
end

