-- ==== Sys2Proof/Laws/State.lean ====
section
/-!
SUPPORT. One lemma per field per update of State, so that no proof unfolds a record update; and how the register
reads and writes meet.
-/
namespace Sys2Proof.Machine

variable (s : State)

/-! ### setReg -/

@[simp] theorem State.setReg_pc (r : RegIdx) (v : Byte) : (s.setReg r v).pc = s.pc := rfl
@[simp] theorem State.setReg_fl (r : RegIdx) (v : Byte) : (s.setReg r v).fl = s.fl := rfl
@[simp] theorem State.setReg_running (r : RegIdx) (v : Byte) : (s.setReg r v).running = s.running := rfl
@[simp] theorem State.setReg_err (r : RegIdx) (v : Byte) : (s.setReg r v).err = s.err := rfl
@[simp] theorem State.setReg_mem (r : RegIdx) (v : Byte) : (s.setReg r v).mem = s.mem := rfl
@[simp] theorem State.setReg_out (r : RegIdx) (v : Byte) : (s.setReg r v).out = s.out := rfl

/-! ### setSp -/

@[simp] theorem State.setSp_pc (v : Byte) : (s.setSp v).pc = s.pc := rfl
@[simp] theorem State.setSp_fl (v : Byte) : (s.setSp v).fl = s.fl := rfl
@[simp] theorem State.setSp_running (v : Byte) : (s.setSp v).running = s.running := rfl
@[simp] theorem State.setSp_err (v : Byte) : (s.setSp v).err = s.err := rfl
@[simp] theorem State.setSp_mem (v : Byte) : (s.setSp v).mem = s.mem := rfl
@[simp] theorem State.setSp_out (v : Byte) : (s.setSp v).out = s.out := rfl

/-! ### setPc -/

@[simp] theorem State.setPc_regs (p : PcWord) : (s.setPc p).regs = s.regs := rfl
@[simp] theorem State.setPc_pc (p : PcWord) : (s.setPc p).pc = p := rfl
@[simp] theorem State.setPc_fl (p : PcWord) : (s.setPc p).fl = s.fl := rfl
@[simp] theorem State.setPc_running (p : PcWord) : (s.setPc p).running = s.running := rfl
@[simp] theorem State.setPc_err (p : PcWord) : (s.setPc p).err = s.err := rfl
@[simp] theorem State.setPc_mem (p : PcWord) : (s.setPc p).mem = s.mem := rfl
@[simp] theorem State.setPc_out (p : PcWord) : (s.setPc p).out = s.out := rfl
@[simp] theorem State.setPc_reg (p : PcWord) (q : RegIdx) : (s.setPc p).reg q = s.reg q := rfl
@[simp] theorem State.setPc_sp (p : PcWord) : (s.setPc p).sp = s.sp := rfl

/-! ### advance -/

@[simp] theorem State.advance_regs (n : PcWord) : (s.advance n).regs = s.regs := rfl
@[simp] theorem State.advance_pc (n : PcWord) : (s.advance n).pc = s.pc + n := rfl
@[simp] theorem State.advance_fl (n : PcWord) : (s.advance n).fl = s.fl := rfl
@[simp] theorem State.advance_running (n : PcWord) : (s.advance n).running = s.running := rfl
@[simp] theorem State.advance_err (n : PcWord) : (s.advance n).err = s.err := rfl
@[simp] theorem State.advance_mem (n : PcWord) : (s.advance n).mem = s.mem := rfl
@[simp] theorem State.advance_out (n : PcWord) : (s.advance n).out = s.out := rfl
@[simp] theorem State.advance_reg (n : PcWord) (q : RegIdx) : (s.advance n).reg q = s.reg q := rfl
@[simp] theorem State.advance_sp (n : PcWord) : (s.advance n).sp = s.sp := rfl

/-! ### jumpTo -/

@[simp] theorem State.jumpTo_regs (v : Byte) : (s.jumpTo v).regs = s.regs := rfl
@[simp] theorem State.jumpTo_pc (v : Byte) : (s.jumpTo v).pc = v.zeroExtend 9 := rfl
@[simp] theorem State.jumpTo_fl (v : Byte) : (s.jumpTo v).fl = s.fl := rfl
@[simp] theorem State.jumpTo_running (v : Byte) : (s.jumpTo v).running = s.running := rfl
@[simp] theorem State.jumpTo_err (v : Byte) : (s.jumpTo v).err = s.err := rfl
@[simp] theorem State.jumpTo_mem (v : Byte) : (s.jumpTo v).mem = s.mem := rfl
@[simp] theorem State.jumpTo_out (v : Byte) : (s.jumpTo v).out = s.out := rfl
@[simp] theorem State.jumpTo_reg (v : Byte) (q : RegIdx) : (s.jumpTo v).reg q = s.reg q := rfl
@[simp] theorem State.jumpTo_sp (v : Byte) : (s.jumpTo v).sp = s.sp := rfl

/-! ### setFl -/

@[simp] theorem State.setFl_regs (v : Byte) : (s.setFl v).regs = s.regs := rfl
@[simp] theorem State.setFl_pc (v : Byte) : (s.setFl v).pc = s.pc := rfl
@[simp] theorem State.setFl_fl (v : Byte) : (s.setFl v).fl = v := rfl
@[simp] theorem State.setFl_running (v : Byte) : (s.setFl v).running = s.running := rfl
@[simp] theorem State.setFl_err (v : Byte) : (s.setFl v).err = s.err := rfl
@[simp] theorem State.setFl_mem (v : Byte) : (s.setFl v).mem = s.mem := rfl
@[simp] theorem State.setFl_out (v : Byte) : (s.setFl v).out = s.out := rfl
@[simp] theorem State.setFl_reg (v : Byte) (q : RegIdx) : (s.setFl v).reg q = s.reg q := rfl
@[simp] theorem State.setFl_sp (v : Byte) : (s.setFl v).sp = s.sp := rfl

/-! ### setRunning -/

@[simp] theorem State.setRunning_regs (b : Bool) : (s.setRunning b).regs = s.regs := rfl
@[simp] theorem State.setRunning_pc (b : Bool) : (s.setRunning b).pc = s.pc := rfl
@[simp] theorem State.setRunning_fl (b : Bool) : (s.setRunning b).fl = s.fl := rfl
@[simp] theorem State.setRunning_running (b : Bool) : (s.setRunning b).running = b := rfl
@[simp] theorem State.setRunning_err (b : Bool) : (s.setRunning b).err = s.err := rfl
@[simp] theorem State.setRunning_mem (b : Bool) : (s.setRunning b).mem = s.mem := rfl
@[simp] theorem State.setRunning_out (b : Bool) : (s.setRunning b).out = s.out := rfl
@[simp] theorem State.setRunning_reg (b : Bool) (q : RegIdx) : (s.setRunning b).reg q = s.reg q := rfl
@[simp] theorem State.setRunning_sp (b : Bool) : (s.setRunning b).sp = s.sp := rfl

/-! ### emit -/

@[simp] theorem State.emit_regs (v : Byte) : (s.emit v).regs = s.regs := rfl
@[simp] theorem State.emit_pc (v : Byte) : (s.emit v).pc = s.pc := rfl
@[simp] theorem State.emit_fl (v : Byte) : (s.emit v).fl = s.fl := rfl
@[simp] theorem State.emit_running (v : Byte) : (s.emit v).running = s.running := rfl
@[simp] theorem State.emit_err (v : Byte) : (s.emit v).err = s.err := rfl
@[simp] theorem State.emit_mem (v : Byte) : (s.emit v).mem = s.mem := rfl
@[simp] theorem State.emit_out (v : Byte) : (s.emit v).out = s.out ++ [v] := rfl
@[simp] theorem State.emit_reg (v : Byte) (q : RegIdx) : (s.emit v).reg q = s.reg q := rfl
@[simp] theorem State.emit_sp (v : Byte) : (s.emit v).sp = s.sp := rfl

/-! ### setMem -/

@[simp] theorem State.setMem_regs (m : Memory) : (s.setMem m).regs = s.regs := rfl
@[simp] theorem State.setMem_pc (m : Memory) : (s.setMem m).pc = s.pc := rfl
@[simp] theorem State.setMem_fl (m : Memory) : (s.setMem m).fl = s.fl := rfl
@[simp] theorem State.setMem_running (m : Memory) : (s.setMem m).running = s.running := rfl
@[simp] theorem State.setMem_err (m : Memory) : (s.setMem m).err = s.err := rfl
@[simp] theorem State.setMem_mem (m : Memory) : (s.setMem m).mem = m := rfl
@[simp] theorem State.setMem_out (m : Memory) : (s.setMem m).out = s.out := rfl
@[simp] theorem State.setMem_reg (m : Memory) (q : RegIdx) : (s.setMem m).reg q = s.reg q := rfl
@[simp] theorem State.setMem_sp (m : Memory) : (s.setMem m).sp = s.sp := rfl

/-! ### raise -/

@[simp] theorem raise_regs (e : FatalError) : (raise e s).regs = s.regs := rfl
@[simp] theorem raise_pc (e : FatalError) : (raise e s).pc = s.pc := rfl
@[simp] theorem raise_fl (e : FatalError) : (raise e s).fl = s.fl := rfl
@[simp] theorem raise_running (e : FatalError) : (raise e s).running = s.running := rfl
@[simp] theorem raise_err (e : FatalError) : (raise e s).err = some e := rfl
@[simp] theorem raise_mem (e : FatalError) : (raise e s).mem = s.mem := rfl
@[simp] theorem raise_out (e : FatalError) : (raise e s).out = s.out := rfl
@[simp] theorem raise_reg (e : FatalError) (q : RegIdx) : (raise e s).reg q = s.reg q := rfl

/-! ### spDec -/

@[simp] theorem spDec_pc : (spDec s).pc = s.pc := rfl
@[simp] theorem spDec_fl : (spDec s).fl = s.fl := rfl
@[simp] theorem spDec_running : (spDec s).running = s.running := rfl
@[simp] theorem spDec_err : (spDec s).err = s.err := rfl
@[simp] theorem spDec_mem : (spDec s).mem = s.mem := rfl
@[simp] theorem spDec_out : (spDec s).out = s.out := rfl

/-! ### spInc -/

@[simp] theorem spInc_pc : (spInc s).pc = s.pc := rfl
@[simp] theorem spInc_fl : (spInc s).fl = s.fl := rfl
@[simp] theorem spInc_running : (spInc s).running = s.running := rfl
@[simp] theorem spInc_err : (spInc s).err = s.err := rfl
@[simp] theorem spInc_mem : (spInc s).mem = s.mem := rfl
@[simp] theorem spInc_out : (spInc s).out = s.out := rfl

/-! ### Register reads after register writes -/

theorem State.reg_setReg (r q : RegIdx) (v : Byte) :
    (s.setReg r v).reg q = if q = r then v else s.reg q := by
  simp only [State.reg, State.setReg, Vector.getElem_set, Fin.val_inj, eq_comm]

@[simp] theorem State.reg_setReg_same (r : RegIdx) (v : Byte) : (s.setReg r v).reg r = v := by
  simp [State.reg_setReg]

theorem State.reg_setReg_ne (r q : RegIdx) (v : Byte) (h : q ≠ r) : (s.setReg r v).reg q = s.reg q := by
  simp [State.reg_setReg, h]

theorem State.reg_setSp (q : RegIdx) (v : Byte) :
    (s.setSp v).reg q = if q = Config.spIndex then v else s.reg q :=
  State.reg_setReg s _ _ _

@[simp] theorem State.sp_setSp (v : Byte) : (s.setSp v).sp = v := State.reg_setReg_same s _ v

theorem State.sp_eq_reg : s.sp = s.reg Config.spIndex := rfl

theorem spDec_reg (q : RegIdx) : (spDec s).reg q = if q = Config.spIndex then s.sp - 1#8 else s.reg q :=
  State.reg_setSp s q _

theorem spInc_reg (q : RegIdx) : (spInc s).reg q = if q = Config.spIndex then s.sp + 1#8 else s.reg q :=
  State.reg_setSp s q _

@[simp] theorem spDec_sp : (spDec s).sp = s.sp - 1#8 := State.sp_setSp s _

@[simp] theorem spInc_sp : (spInc s).sp = s.sp + 1#8 := State.sp_setSp s _

/-- Two states are equal when every register and every other field agree. -/
theorem State.ext_reg {s t : State} (regs : ∀ r, s.reg r = t.reg r) (pc : s.pc = t.pc) (fl : s.fl = t.fl)
    (running : s.running = t.running) (err : s.err = t.err) (mem : s.mem = t.mem) (out : s.out = t.out) : s = t := by
  obtain ⟨sr, spc, sfl, srun, serr, smem, sout⟩ := s
  obtain ⟨tr, tpc, tfl, trun, terr, tmem, tout⟩ := t
  have hr : sr = tr := Vector.ext fun k hk => regs ⟨k, hk⟩
  simp_all

end Sys2Proof.Machine
end

