-- ==== Sys2Proof/Laws/Ops.lean ====
section
/-!
SUPPORT. For each shared operation, one lemma that says everything it can do.
-/
namespace Sys2Proof.Machine

/-! ## Memory access -/

theorem memRead_of_lt {addr : Nat} (s : State) (h : addr < 256) :
    memRead addr s = .ok (Memory.read s.mem addr) := if_pos h

theorem memRead_of_ge {addr : Nat} (s : State) (h : 256 ≤ addr) :
    memRead addr s = .error (.outOfBounds addr) := if_neg (Nat.not_lt.mpr h)

theorem memWrite_of_lt {addr : Nat} (v : Byte) (s : State) (h : addr < 256) :
    memWrite addr v s = .ok (s.setMem (Memory.write s.mem addr v)) := if_pos h

theorem memWrite_of_ge {addr : Nat} (v : Byte) (s : State) (h : 256 ≤ addr) :
    memWrite addr v s = .error (.outOfBounds addr) := if_neg (Nat.not_lt.mpr h)

/-! ## Outcomes -/

@[simp] theorem settle_ok (s t : State) : settle s (.ok t) = .next t := rfl

@[simp] theorem settle_error (s : State) (e : FatalError) : settle s (.error e) = .next (raise e s) := rfl

/-- `settle` always answers a next state: the handler's, or the error latched. -/
theorem settle_eq_next {s t : State} {r : Except FatalError State} (h : settle s r = .next t) :
    r = .ok t ∨ ∃ e, r = .error e ∧ t = raise e s := by
  cases r with
  | ok u => simp only [settle_ok, Host.Outcome.next.injEq] at h; exact .inl (by rw [h])
  | error e => simp only [settle_error, Host.Outcome.next.injEq] at h; exact .inr ⟨e, rfl, h.symm⟩

/-! ## Register operands -/

@[simp] theorem regByte_toNat (r : RegIdx) : (regByte r).toNat = r.val := by
  simp only [regByte, BitVec.toNat_ofNat]
  omega

/-- A register operand byte is the byte of a register or is above 7 (R53). -/
theorem regByte_or_bad (a : Byte) : (∃ r, a = regByte r) ∨ 8 ≤ a.toNat := by
  by_cases h : a.toNat < 8
  · refine .inl ⟨⟨a.toNat, h⟩, BitVec.eq_of_toNat_eq ?_⟩
    simp
  · exact .inr (Nat.not_lt.mp h)

theorem regOperandOk_iff (a : Byte) : regOperandOk a = true ↔ a.toNat < 8 := by simp [regOperandOk]

@[simp] theorem checkReg_regByte (i : Instr) (r : RegIdx) (s : State) : checkReg i (regByte r) s = .ok r := by
  simp [checkReg]

theorem checkReg_bad (i : Instr) {a : Byte} (s : State) (h : 8 ≤ a.toNat) :
    checkReg i a s = .error (.badRegisterIndex (opcodeOf i) s.pc a) := dif_neg (Nat.not_lt.mpr h)

@[simp] theorem withReg_regByte (i : Instr) (r : RegIdx) (s : State) (f : RegIdx → Except FatalError State) :
    withReg i (regByte r) s f = settle s (f r) := by
  simp [withReg]

theorem withReg_bad (i : Instr) {a : Byte} (s : State) (f : RegIdx → Except FatalError State) (h : 8 ≤ a.toNat) :
    withReg i a s f = .next (raise (.badRegisterIndex (opcodeOf i) s.pc a) s) := by
  simp [withReg, checkReg_bad i s h]

@[simp] theorem withRegs_regByte (i : Instr) (ra rb : RegIdx) (s : State)
    (f : RegIdx → RegIdx → Except FatalError State) :
    withRegs i (regByte ra) (regByte rb) s f = settle s (f ra rb) := by
  simp [withRegs]

theorem withRegs_bad_first (i : Instr) {a : Byte} (b : Byte) (s : State)
    (f : RegIdx → RegIdx → Except FatalError State) (h : 8 ≤ a.toNat) :
    withRegs i a b s f = .next (raise (.badRegisterIndex (opcodeOf i) s.pc a) s) := by
  simp [withRegs, checkReg_bad i s h]

theorem withRegs_bad_second (i : Instr) (ra : RegIdx) {b : Byte} (s : State)
    (f : RegIdx → RegIdx → Except FatalError State) (h : 8 ≤ b.toNat) :
    withRegs i (regByte ra) b s f = .next (raise (.badRegisterIndex (opcodeOf i) s.pc b) s) := by
  simp [withRegs, checkReg_bad i s h]

/-- Everything an instruction with one register operand can do: raise BadRegisterIndex, or what its handler does. -/
theorem withReg_cases {i : Instr} {a : Byte} {s t : State} {f : RegIdx → Except FatalError State}
    (h : withReg i a s f = .next t) :
    (8 ≤ a.toNat ∧ t = raise (.badRegisterIndex (opcodeOf i) s.pc a) s) ∨
      ∃ r, a = regByte r ∧ (f r = .ok t ∨ ∃ e, f r = .error e ∧ t = raise e s) := by
  obtain ⟨r, rfl⟩ | hbad := regByte_or_bad a
  · exact .inr ⟨r, rfl, settle_eq_next (by simpa using h)⟩
  · rw [withReg_bad i s f hbad, Host.Outcome.next.injEq] at h
    exact .inl ⟨hbad, h.symm⟩

/-- Everything an instruction with two register operands can do. -/
theorem withRegs_cases {i : Instr} {a b : Byte} {s t : State} {f : RegIdx → RegIdx → Except FatalError State}
    (h : withRegs i a b s f = .next t) :
    (8 ≤ a.toNat ∧ t = raise (.badRegisterIndex (opcodeOf i) s.pc a) s) ∨
      (a.toNat < 8 ∧ 8 ≤ b.toNat ∧ t = raise (.badRegisterIndex (opcodeOf i) s.pc b) s) ∨
        ∃ ra rb, a = regByte ra ∧ b = regByte rb ∧
          (f ra rb = .ok t ∨ ∃ e, f ra rb = .error e ∧ t = raise e s) := by
  obtain ⟨ra, rfl⟩ | hbad := regByte_or_bad a
  · obtain ⟨rb, rfl⟩ | hbad := regByte_or_bad b
    · exact .inr (.inr ⟨ra, rb, rfl, rfl, settle_eq_next (by simpa using h)⟩)
    · rw [withRegs_bad_second i ra s f hbad, Host.Outcome.next.injEq] at h
      exact .inr (.inl ⟨by simp, hbad, h.symm⟩)
  · rw [withRegs_bad_first i b s f hbad, Host.Outcome.next.injEq] at h
    exact .inl ⟨hbad, h.symm⟩

/-! ## The stack -/

/-- A push decrements `sp` and stores one byte at the new `sp`; it raises nothing (R38, R80). -/
theorem pushByte_eq (value : State → Byte) (s : State) :
    pushByte value s =
      .ok ((spDec s).setMem (Memory.write s.mem (s.sp - 1#8).toNat (value (spDec s)))) := by
  rw [pushByte, memWrite_of_lt _ _ (BitVec.isLt _), spDec_sp, spDec_mem]

/-- The byte at `sp`; it raises nothing (R38, R80). -/
theorem topOfStack_eq (s : State) : topOfStack s = .ok (Memory.read s.mem s.sp.toNat) :=
  memRead_of_lt s (BitVec.isLt _)

/-- Where the CALL could be fetched the pushed byte is exactly `pc + 2` (R83). -/
theorem returnByte_toNat {s : State} (h : s.pc.toNat ≤ 253) :
    (returnByte s).toNat = s.pc.toNat + 2 := by
  simp only [returnByte, BitVec.truncate_eq_setWidth, BitVec.toNat_setWidth, BitVec.toNat_add, BitVec.toNat_ofNat]
  omega

/-- A control transfer's target keeps the byte's value (R14). -/
@[simp] theorem jumpTo_pc_toNat (s : State) (v : Byte) : (s.jumpTo v).pc.toNat = v.toNat := by
  simp only [State.jumpTo_pc, BitVec.zeroExtend_eq_setWidth, BitVec.toNat_setWidth]
  have := v.isLt
  omega

/-! ## The canonical form is kept by every operation that writes memory -/

theorem memWrite_wf {addr : Nat} {v : Byte} {s t : State} (h : Memory.wf s.mem = true)
    (hw : memWrite addr v s = .ok t) : Memory.wf t.mem = true := by
  unfold memWrite at hw
  split at hw
  · rename_i ha
    cases hw
    exact Memory.wf_write h ha
  · cases hw

theorem pushByte_wf {value : State → Byte} {s t : State} (h : Memory.wf s.mem = true)
    (hp : pushByte value s = .ok t) : Memory.wf t.mem = true :=
  memWrite_wf (s := spDec s) h hp

theorem placeAt_le (s : State) : (placeAt s).toNat ≤ 253 := by
  unfold placeAt
  split
  · assumption
  · decide

theorem placeWindow_wf (b0 b1 b2 : Byte) {s : State} (h : Memory.wf s.mem = true) :
    Memory.wf (placeWindow b0 b1 b2 s).mem = true := by
  have := placeAt_le s
  exact Memory.wf_writeAll h (by simp only [List.length_cons, List.length_nil, Config.memSize]; omega)

theorem reset_mem_wf : Memory.wf State.reset.mem = true := rfl

/-! ## Fetch, dispatch, step -/

/-- The fetch of a step whose window fits in memory (R62). -/
theorem fetch_of_le {s : State} (h : s.pc.toNat ≤ 253) :
    fetch s = .ok (Memory.read s.mem s.pc.toNat, Memory.read s.mem (s.pc.toNat + 1),
      Memory.read s.mem (s.pc.toNat + 2)) := by
  simp only [fetch, memRead_of_lt s (show s.pc.toNat < 256 by omega),
    memRead_of_lt s (show s.pc.toNat + 1 < 256 by omega), memRead_of_lt s (show s.pc.toNat + 2 < 256 by omega)]

/-- The fetch of a step whose window does not fit: the first address above 255 (R63). -/
theorem fetch_of_gt {s : State} (h : 253 < s.pc.toNat) :
    fetch s = .error (.outOfBounds (max s.pc.toNat 256)) := by
  unfold fetch memRead
  simp only [Config.memSize]
  by_cases h0 : s.pc.toNat < 256
  · by_cases h1 : s.pc.toNat + 1 < 256
    · have : s.pc.toNat = 254 := by omega
      simp [this]
    · have : s.pc.toNat = 255 := by omega
      simp [this]
  · simp [h0, show max s.pc.toNat 256 = s.pc.toNat by omega]

/-- Fetch and dispatch where the window fits (R62, R65). -/
theorem fetchInstr_of_le {s : State} (h : s.pc.toNat ≤ 253) :
    fetchInstr s =
      match decode (Memory.read s.mem s.pc.toNat) (Memory.read s.mem (s.pc.toNat + 1))
        (Memory.read s.mem (s.pc.toNat + 2)) with
      | .ok i => .ok i
      | .error _ => .error (.unknownOpcode (Memory.read s.mem s.pc.toNat) s.pc) := by
  cases hd : decode (Memory.read s.mem s.pc.toNat) (Memory.read s.mem (s.pc.toNat + 1))
    (Memory.read s.mem (s.pc.toNat + 2)) <;> simp only [fetchInstr, fetch_of_le h, hd]

theorem fetchInstr_of_gt {s : State} (h : 253 < s.pc.toNat) :
    fetchInstr s = .error (.outOfBounds (max s.pc.toNat 256)) := by
  simp only [fetchInstr, fetch_of_gt h]

/-- The core steps exactly while running with no error latched (R61). -/
theorem stepGuard_eq_none (s : State) : stepGuard s = none ↔ s.running = true ∧ s.err = none := by
  unfold stepGuard
  cases s.err <;> cases s.running <;> simp

/-- Everything a step that answers a next state can do. -/
theorem step_cases {s t : State} (h : step s = .next t) :
    s.running = true ∧ s.err = none ∧
      ((∃ e, fetchInstr s = .error e ∧ t = raise e s) ∨ ∃ i, fetchInstr s = .ok i ∧ exec i s = .next t) := by
  unfold step at h
  split at h
  · cases h
  · rename_i hg
    obtain ⟨hr, he⟩ := (stepGuard_eq_none s).mp hg
    refine ⟨hr, he, ?_⟩
    split at h
    · rename_i e hf
      rw [Host.Outcome.next.injEq] at h
      exact .inl ⟨e, hf, h.symm⟩
    · rename_i i hf
      exact .inr ⟨i, hf, h⟩

/-- A running, healthy core takes the step of the instruction it fetched. -/
theorem step_of_fetchInstr {s : State} {i : Instr} (hr : s.running = true) (he : s.err = none)
    (hf : fetchInstr s = .ok i) : step s = exec i s := by
  simp only [step, (stepGuard_eq_none s).mpr ⟨hr, he⟩, hf]

theorem step_of_fetchError {s : State} {e : FatalError} (hr : s.running = true) (he : s.err = none)
    (hf : fetchInstr s = .error e) : step s = .next (raise e s) := by
  simp only [step, (stepGuard_eq_none s).mpr ⟨hr, he⟩, hf]

/-! ## Host operations -/

theorem coreActive_iff (s : State) : coreActive s = true ↔ s.running = true ∧ s.err = none := by
  unfold coreActive
  cases s.err <;> simp

theorem hostRun_eq_next {s t : State} (h : hostRun s = .next t) :
    s.running = false ∧ s.err = none ∧ t = s.setRunning true := by
  unfold hostRun at h
  split at h
  · cases h
  · rename_i he
    split at h
    · cases h
    · rename_i hr
      rw [Host.Outcome.next.injEq] at h
      exact ⟨by simpa using hr, he, h.symm⟩

theorem hostLoad_eq_next {bytes : List Byte} {s t : State} (h : hostLoad bytes s = .next t) :
    coreActive s = false ∧ bytes.length ≤ Config.memSize ∧
      t = s.setMem (Memory.writeAll s.mem Config.loadAddress bytes) := by
  unfold hostLoad at h
  split at h
  · cases h
  · rename_i ha
    split at h
    · rename_i hl
      rw [Host.Outcome.next.injEq] at h
      exact ⟨by simpa using ha, hl, h.symm⟩
    · cases h

end Sys2Proof.Machine
end

