-- ==== Sys2Proof/Laws/Exec.lean ====
section
/-!
SUPPORT. For each instruction, the next state it answers when its register operands are legal; the trap of an illegal
operand is withReg_bad, withRegs_bad_first and withRegs_bad_second.
-/
namespace Sys2Proof.Machine

variable (s : State) (ra rb : RegIdx)

theorem exec_hlt : exec .hlt s = .next ((s.setRunning false).advance 1) := rfl

theorem exec_ldi (v : Byte) : exec (.ldi (regByte ra) v) s = .next ((s.setReg ra v).advance 3) := by
  simp [exec, execLdi]

theorem exec_prn : exec (.prn (regByte ra)) s = .next ((s.emit (s.reg ra)).advance 2) := by
  simp [exec, execPrn]

theorem exec_push :
    exec (.push (regByte ra)) s =
      .next (((spDec s).setMem (Memory.write s.mem (s.sp - 1#8).toNat ((spDec s).reg ra))).advance 2) := by
  simp [exec, execPush, pushByte_eq, Except.map]

theorem exec_pop :
    exec (.pop (regByte ra)) s =
      .next ((spInc (s.setReg ra (Memory.read s.mem s.sp.toNat))).advance 2) := by
  simp [exec, execPop, topOfStack_eq, Except.map]

theorem exec_call :
    exec (.call (regByte ra)) s =
      .next (((spDec s).setMem (Memory.write s.mem (s.sp - 1#8).toNat (returnByte s))).jumpTo ((spDec s).reg ra)) := by
  simp only [exec, execCall, withReg_regByte, pushByte_eq]
  rfl

theorem exec_ret :
    exec .ret s = .next ((spInc s).jumpTo (Memory.read s.mem s.sp.toNat)) := by
  simp [exec, execRet, topOfStack_eq, Except.map]

theorem exec_add :
    exec (.add (regByte ra) (regByte rb)) s =
      .next ((s.setReg ra (aluAdd (s.reg ra) (s.reg rb))).advance 3) := by
  simp [exec, execAdd, storeAlu]

theorem exec_mul :
    exec (.mul (regByte ra) (regByte rb)) s =
      .next ((s.setReg ra (aluMul (s.reg ra) (s.reg rb))).advance 3) := by
  simp [exec, execMul, storeAlu]

theorem exec_mod (h : s.reg rb ≠ 0#8) :
    exec (.mod (regByte ra) (regByte rb)) s =
      .next ((s.setReg ra (aluMod (s.reg ra) (s.reg rb))).advance 3) := by
  simp [exec, execMod, storeAlu, h]

theorem exec_mod_zero (h : s.reg rb = 0#8) :
    exec (.mod (regByte ra) (regByte rb)) s = .next (raise (.divideByZero (regByte ra) (regByte rb)) s) := by
  simp [exec, execMod, h]

theorem exec_and :
    exec (.and (regByte ra) (regByte rb)) s = .next ((s.setReg ra (s.reg ra &&& s.reg rb)).advance 3) := by
  simp [exec, execAnd, storeAlu]

theorem exec_or :
    exec (.or (regByte ra) (regByte rb)) s = .next ((s.setReg ra (s.reg ra ||| s.reg rb)).advance 3) := by
  simp [exec, execOr, storeAlu]

theorem exec_xor :
    exec (.xor (regByte ra) (regByte rb)) s = .next ((s.setReg ra (s.reg ra ^^^ s.reg rb)).advance 3) := by
  simp [exec, execXor, storeAlu]

theorem exec_not : exec (.not (regByte ra)) s = .next ((s.setReg ra (~~~ s.reg ra)).advance 2) := by
  simp [exec, execNot]

theorem exec_shl :
    exec (.shl (regByte ra) (regByte rb)) s =
      .next ((s.setReg ra (aluShl (s.reg ra) (s.reg rb))).advance 3) := by
  simp [exec, execShl, storeAlu]

theorem exec_shr :
    exec (.shr (regByte ra) (regByte rb)) s =
      .next ((s.setReg ra (aluShr (s.reg ra) (s.reg rb))).advance 3) := by
  simp [exec, execShr, storeAlu]

theorem exec_cmp :
    exec (.cmp (regByte ra) (regByte rb)) s =
      .next ((s.setFl (compareFlags (s.reg ra) (s.reg rb))).advance 3) := by
  simp [exec, execCmp]

theorem exec_jmp : exec (.jmp (regByte ra)) s = .next (s.jumpTo (s.reg ra)) := by
  simp [exec, execJmp, jumpIf]

theorem exec_jeq :
    exec (.jeq (regByte ra)) s = .next (if condEq s.fl then s.jumpTo (s.reg ra) else s.advance 2) := by
  simp [exec, execJeq, jumpIf]

theorem exec_jne :
    exec (.jne (regByte ra)) s = .next (if condNe s.fl then s.jumpTo (s.reg ra) else s.advance 2) := by
  simp [exec, execJne, jumpIf]

theorem exec_jgt :
    exec (.jgt (regByte ra)) s = .next (if condGt s.fl then s.jumpTo (s.reg ra) else s.advance 2) := by
  simp [exec, execJgt, jumpIf]

theorem exec_jlt :
    exec (.jlt (regByte ra)) s = .next (if condLt s.fl then s.jumpTo (s.reg ra) else s.advance 2) := by
  simp [exec, execJlt, jumpIf]

theorem exec_jge :
    exec (.jge (regByte ra)) s = .next (if condGe s.fl then s.jumpTo (s.reg ra) else s.advance 2) := by
  simp [exec, execJge, jumpIf]

theorem exec_jle :
    exec (.jle (regByte ra)) s = .next (if condLe s.fl then s.jumpTo (s.reg ra) else s.advance 2) := by
  simp [exec, execJle, jumpIf]

/-! ## The trap of an illegal register operand (R66) -/

/-- A first register operand above 7 raises BadRegisterIndex with that byte, whatever the instruction. -/
theorem exec_bad_first {i : Instr} {a : Byte} (s : State) (first : i.regOperands.head? = some a) (bad : 8 ≤ a.toNat) :
    exec i s = .next (raise (.badRegisterIndex (opcodeOf i) s.pc a) s) := by
  cases i with
  | hlt => cases first
  | ret => cases first
  | ldi x v => cases first; exact withReg_bad _ s _ bad
  | prn x => cases first; exact withReg_bad _ s _ bad
  | push x => cases first; exact withReg_bad _ s _ bad
  | pop x => cases first; exact withReg_bad _ s _ bad
  | call x => cases first; exact withReg_bad _ s _ bad
  | not x => cases first; exact withReg_bad _ s _ bad
  | jmp x => cases first; exact withReg_bad _ s _ bad
  | jeq x => cases first; exact withReg_bad _ s _ bad
  | jne x => cases first; exact withReg_bad _ s _ bad
  | jgt x => cases first; exact withReg_bad _ s _ bad
  | jlt x => cases first; exact withReg_bad _ s _ bad
  | jge x => cases first; exact withReg_bad _ s _ bad
  | jle x => cases first; exact withReg_bad _ s _ bad
  | add x y => cases first; exact withRegs_bad_first _ y s _ bad
  | mul x y => cases first; exact withRegs_bad_first _ y s _ bad
  | mod x y => cases first; exact withRegs_bad_first _ y s _ bad
  | and x y => cases first; exact withRegs_bad_first _ y s _ bad
  | or x y => cases first; exact withRegs_bad_first _ y s _ bad
  | xor x y => cases first; exact withRegs_bad_first _ y s _ bad
  | shl x y => cases first; exact withRegs_bad_first _ y s _ bad
  | shr x y => cases first; exact withRegs_bad_first _ y s _ bad
  | cmp x y => cases first; exact withRegs_bad_first _ y s _ bad

/-- A legal first operand and a second one above 7 raise BadRegisterIndex with the second byte. -/
theorem exec_bad_second {i : Instr} {ra : RegIdx} {b : Byte} (s : State) (both : i.regOperands = [regByte ra, b])
    (bad : 8 ≤ b.toNat) : exec i s = .next (raise (.badRegisterIndex (opcodeOf i) s.pc b) s) := by
  cases i with
  | hlt => cases both
  | ret => cases both
  | ldi x v => cases both
  | prn x => cases both
  | push x => cases both
  | pop x => cases both
  | call x => cases both
  | not x => cases both
  | jmp x => cases both
  | jeq x => cases both
  | jne x => cases both
  | jgt x => cases both
  | jlt x => cases both
  | jge x => cases both
  | jle x => cases both
  | add x y => cases both; exact withRegs_bad_second _ ra s _ bad
  | mul x y => cases both; exact withRegs_bad_second _ ra s _ bad
  | mod x y => cases both; exact withRegs_bad_second _ ra s _ bad
  | and x y => cases both; exact withRegs_bad_second _ ra s _ bad
  | or x y => cases both; exact withRegs_bad_second _ ra s _ bad
  | xor x y => cases both; exact withRegs_bad_second _ ra s _ bad
  | shl x y => cases both; exact withRegs_bad_second _ ra s _ bad
  | shr x y => cases both; exact withRegs_bad_second _ ra s _ bad
  | cmp x y => cases both; exact withRegs_bad_second _ ra s _ bad

/-! ## Everything an instruction can do -/

/-- The states an instruction can answer from `s`: an error latched, or its own effect. -/
inductive Effect (s : State) : Instr → State → Prop where
  | badFirst (i : Instr) (a : Byte) (first : i.regOperands.head? = some a) (bad : 8 ≤ a.toNat) :
    Effect s i (raise (.badRegisterIndex (opcodeOf i) s.pc a) s)
  | badSecond (i : Instr) (ra : RegIdx) (b : Byte) (both : i.regOperands = [regByte ra, b]) (bad : 8 ≤ b.toNat) :
    Effect s i (raise (.badRegisterIndex (opcodeOf i) s.pc b) s)
  | modZero (ra rb : RegIdx) (zero : s.reg rb = 0#8) :
    Effect s (.mod (regByte ra) (regByte rb)) (raise (.divideByZero (regByte ra) (regByte rb)) s)
  | hlt : Effect s .hlt ((s.setRunning false).advance 1)
  | ldi (ra : RegIdx) (v : Byte) : Effect s (.ldi (regByte ra) v) ((s.setReg ra v).advance 3)
  | prn (ra : RegIdx) : Effect s (.prn (regByte ra)) ((s.emit (s.reg ra)).advance 2)
  | push (ra : RegIdx) : Effect s (.push (regByte ra))
      (((spDec s).setMem (Memory.write s.mem (s.sp - 1#8).toNat ((spDec s).reg ra))).advance 2)
  | pop (ra : RegIdx) : Effect s (.pop (regByte ra))
      ((spInc (s.setReg ra (Memory.read s.mem s.sp.toNat))).advance 2)
  | call (ra : RegIdx) : Effect s (.call (regByte ra))
      (((spDec s).setMem (Memory.write s.mem (s.sp - 1#8).toNat (returnByte s))).jumpTo ((spDec s).reg ra))
  | ret : Effect s .ret ((spInc s).jumpTo (Memory.read s.mem s.sp.toNat))
  | add (ra rb : RegIdx) : Effect s (.add (regByte ra) (regByte rb))
      ((s.setReg ra (aluAdd (s.reg ra) (s.reg rb))).advance 3)
  | mul (ra rb : RegIdx) : Effect s (.mul (regByte ra) (regByte rb))
      ((s.setReg ra (aluMul (s.reg ra) (s.reg rb))).advance 3)
  | mod (ra rb : RegIdx) (nonzero : s.reg rb ≠ 0#8) : Effect s (.mod (regByte ra) (regByte rb))
      ((s.setReg ra (aluMod (s.reg ra) (s.reg rb))).advance 3)
  | and (ra rb : RegIdx) : Effect s (.and (regByte ra) (regByte rb))
      ((s.setReg ra (s.reg ra &&& s.reg rb)).advance 3)
  | or (ra rb : RegIdx) : Effect s (.or (regByte ra) (regByte rb))
      ((s.setReg ra (s.reg ra ||| s.reg rb)).advance 3)
  | xor (ra rb : RegIdx) : Effect s (.xor (regByte ra) (regByte rb))
      ((s.setReg ra (s.reg ra ^^^ s.reg rb)).advance 3)
  | shl (ra rb : RegIdx) : Effect s (.shl (regByte ra) (regByte rb))
      ((s.setReg ra (aluShl (s.reg ra) (s.reg rb))).advance 3)
  | shr (ra rb : RegIdx) : Effect s (.shr (regByte ra) (regByte rb))
      ((s.setReg ra (aluShr (s.reg ra) (s.reg rb))).advance 3)
  | not (ra : RegIdx) : Effect s (.not (regByte ra)) ((s.setReg ra (~~~ s.reg ra)).advance 2)
  | cmp (ra rb : RegIdx) : Effect s (.cmp (regByte ra) (regByte rb))
      ((s.setFl (compareFlags (s.reg ra) (s.reg rb))).advance 3)
  | jmp (ra : RegIdx) : Effect s (.jmp (regByte ra)) (s.jumpTo (s.reg ra))
  | jeq (ra : RegIdx) : Effect s (.jeq (regByte ra))
      (if condEq s.fl then s.jumpTo (s.reg ra) else s.advance 2)
  | jne (ra : RegIdx) : Effect s (.jne (regByte ra))
      (if condNe s.fl then s.jumpTo (s.reg ra) else s.advance 2)
  | jgt (ra : RegIdx) : Effect s (.jgt (regByte ra))
      (if condGt s.fl then s.jumpTo (s.reg ra) else s.advance 2)
  | jlt (ra : RegIdx) : Effect s (.jlt (regByte ra))
      (if condLt s.fl then s.jumpTo (s.reg ra) else s.advance 2)
  | jge (ra : RegIdx) : Effect s (.jge (regByte ra))
      (if condGe s.fl then s.jumpTo (s.reg ra) else s.advance 2)
  | jle (ra : RegIdx) : Effect s (.jle (regByte ra))
      (if condLe s.fl then s.jumpTo (s.reg ra) else s.advance 2)

/-- In every state every instruction answers a next state that is one of its effects. -/
theorem exec_effect (i : Instr) (s : State) : ∃ t, exec i s = .next t ∧ Effect s i t := by
  cases i with
  | hlt => exact ⟨_, exec_hlt s, .hlt⟩
  | ret => exact ⟨_, exec_ret s, .ret⟩
  | ldi a v =>
    obtain ⟨ra, rfl⟩ | bad := regByte_or_bad a
    · exact ⟨_, exec_ldi s ra v, .ldi ra v⟩
    · exact ⟨_, withReg_bad _ s _ bad, .badFirst _ a rfl bad⟩
  | mod a b =>
    obtain ⟨ra, rfl⟩ | bad := regByte_or_bad a
    · obtain ⟨rb, rfl⟩ | bad := regByte_or_bad b
      · by_cases hz : s.reg rb = 0#8
        · exact ⟨_, exec_mod_zero s ra rb hz, .modZero ra rb hz⟩
        · exact ⟨_, exec_mod s ra rb hz, .mod ra rb hz⟩
      · exact ⟨_, withRegs_bad_second _ ra s _ bad, .badSecond _ ra b rfl bad⟩
    · exact ⟨_, withRegs_bad_first _ b s _ bad, .badFirst _ a rfl bad⟩
  | prn a =>
    obtain ⟨ra, rfl⟩ | bad := regByte_or_bad a
    · exact ⟨_, exec_prn s ra, .prn ra⟩
    · exact ⟨_, withReg_bad _ s _ bad, .badFirst _ a rfl bad⟩
  | push a =>
    obtain ⟨ra, rfl⟩ | bad := regByte_or_bad a
    · exact ⟨_, exec_push s ra, .push ra⟩
    · exact ⟨_, withReg_bad _ s _ bad, .badFirst _ a rfl bad⟩
  | pop a =>
    obtain ⟨ra, rfl⟩ | bad := regByte_or_bad a
    · exact ⟨_, exec_pop s ra, .pop ra⟩
    · exact ⟨_, withReg_bad _ s _ bad, .badFirst _ a rfl bad⟩
  | call a =>
    obtain ⟨ra, rfl⟩ | bad := regByte_or_bad a
    · exact ⟨_, exec_call s ra, .call ra⟩
    · exact ⟨_, withReg_bad _ s _ bad, .badFirst _ a rfl bad⟩
  | not a =>
    obtain ⟨ra, rfl⟩ | bad := regByte_or_bad a
    · exact ⟨_, exec_not s ra, .not ra⟩
    · exact ⟨_, withReg_bad _ s _ bad, .badFirst _ a rfl bad⟩
  | jmp a =>
    obtain ⟨ra, rfl⟩ | bad := regByte_or_bad a
    · exact ⟨_, exec_jmp s ra, .jmp ra⟩
    · exact ⟨_, withReg_bad _ s _ bad, .badFirst _ a rfl bad⟩
  | jeq a =>
    obtain ⟨ra, rfl⟩ | bad := regByte_or_bad a
    · exact ⟨_, exec_jeq s ra, .jeq ra⟩
    · exact ⟨_, withReg_bad _ s _ bad, .badFirst _ a rfl bad⟩
  | jne a =>
    obtain ⟨ra, rfl⟩ | bad := regByte_or_bad a
    · exact ⟨_, exec_jne s ra, .jne ra⟩
    · exact ⟨_, withReg_bad _ s _ bad, .badFirst _ a rfl bad⟩
  | jgt a =>
    obtain ⟨ra, rfl⟩ | bad := regByte_or_bad a
    · exact ⟨_, exec_jgt s ra, .jgt ra⟩
    · exact ⟨_, withReg_bad _ s _ bad, .badFirst _ a rfl bad⟩
  | jlt a =>
    obtain ⟨ra, rfl⟩ | bad := regByte_or_bad a
    · exact ⟨_, exec_jlt s ra, .jlt ra⟩
    · exact ⟨_, withReg_bad _ s _ bad, .badFirst _ a rfl bad⟩
  | jge a =>
    obtain ⟨ra, rfl⟩ | bad := regByte_or_bad a
    · exact ⟨_, exec_jge s ra, .jge ra⟩
    · exact ⟨_, withReg_bad _ s _ bad, .badFirst _ a rfl bad⟩
  | jle a =>
    obtain ⟨ra, rfl⟩ | bad := regByte_or_bad a
    · exact ⟨_, exec_jle s ra, .jle ra⟩
    · exact ⟨_, withReg_bad _ s _ bad, .badFirst _ a rfl bad⟩
  | add a b =>
    obtain ⟨ra, rfl⟩ | bad := regByte_or_bad a
    · obtain ⟨rb, rfl⟩ | bad := regByte_or_bad b
      · exact ⟨_, exec_add s ra rb, .add ra rb⟩
      · exact ⟨_, withRegs_bad_second _ ra s _ bad, .badSecond _ ra b rfl bad⟩
    · exact ⟨_, withRegs_bad_first _ b s _ bad, .badFirst _ a rfl bad⟩
  | mul a b =>
    obtain ⟨ra, rfl⟩ | bad := regByte_or_bad a
    · obtain ⟨rb, rfl⟩ | bad := regByte_or_bad b
      · exact ⟨_, exec_mul s ra rb, .mul ra rb⟩
      · exact ⟨_, withRegs_bad_second _ ra s _ bad, .badSecond _ ra b rfl bad⟩
    · exact ⟨_, withRegs_bad_first _ b s _ bad, .badFirst _ a rfl bad⟩
  | and a b =>
    obtain ⟨ra, rfl⟩ | bad := regByte_or_bad a
    · obtain ⟨rb, rfl⟩ | bad := regByte_or_bad b
      · exact ⟨_, exec_and s ra rb, .and ra rb⟩
      · exact ⟨_, withRegs_bad_second _ ra s _ bad, .badSecond _ ra b rfl bad⟩
    · exact ⟨_, withRegs_bad_first _ b s _ bad, .badFirst _ a rfl bad⟩
  | or a b =>
    obtain ⟨ra, rfl⟩ | bad := regByte_or_bad a
    · obtain ⟨rb, rfl⟩ | bad := regByte_or_bad b
      · exact ⟨_, exec_or s ra rb, .or ra rb⟩
      · exact ⟨_, withRegs_bad_second _ ra s _ bad, .badSecond _ ra b rfl bad⟩
    · exact ⟨_, withRegs_bad_first _ b s _ bad, .badFirst _ a rfl bad⟩
  | xor a b =>
    obtain ⟨ra, rfl⟩ | bad := regByte_or_bad a
    · obtain ⟨rb, rfl⟩ | bad := regByte_or_bad b
      · exact ⟨_, exec_xor s ra rb, .xor ra rb⟩
      · exact ⟨_, withRegs_bad_second _ ra s _ bad, .badSecond _ ra b rfl bad⟩
    · exact ⟨_, withRegs_bad_first _ b s _ bad, .badFirst _ a rfl bad⟩
  | shl a b =>
    obtain ⟨ra, rfl⟩ | bad := regByte_or_bad a
    · obtain ⟨rb, rfl⟩ | bad := regByte_or_bad b
      · exact ⟨_, exec_shl s ra rb, .shl ra rb⟩
      · exact ⟨_, withRegs_bad_second _ ra s _ bad, .badSecond _ ra b rfl bad⟩
    · exact ⟨_, withRegs_bad_first _ b s _ bad, .badFirst _ a rfl bad⟩
  | shr a b =>
    obtain ⟨ra, rfl⟩ | bad := regByte_or_bad a
    · obtain ⟨rb, rfl⟩ | bad := regByte_or_bad b
      · exact ⟨_, exec_shr s ra rb, .shr ra rb⟩
      · exact ⟨_, withRegs_bad_second _ ra s _ bad, .badSecond _ ra b rfl bad⟩
    · exact ⟨_, withRegs_bad_first _ b s _ bad, .badFirst _ a rfl bad⟩
  | cmp a b =>
    obtain ⟨ra, rfl⟩ | bad := regByte_or_bad a
    · obtain ⟨rb, rfl⟩ | bad := regByte_or_bad b
      · exact ⟨_, exec_cmp s ra rb, .cmp ra rb⟩
      · exact ⟨_, withRegs_bad_second _ ra s _ bad, .badSecond _ ra b rfl bad⟩
    · exact ⟨_, withRegs_bad_first _ b s _ bad, .badFirst _ a rfl bad⟩

/-- The inversion of `exec`: a next state is one of the instruction's effects. -/
theorem effect_of_exec {i : Instr} {s t : State} (h : exec i s = .next t) : Effect s i t := by
  obtain ⟨u, hu, he⟩ := exec_effect i s
  rw [hu, Host.Outcome.next.injEq] at h
  exact h ▸ he

/-! ## The values of the ALU as numbers (R91 to R93, R98, R99) -/

@[simp] theorem aluAdd_toNat (x y : Byte) : (aluAdd x y).toNat = (x.toNat + y.toNat) % 256 := by
  simp [aluAdd]

@[simp] theorem aluMul_toNat (x y : Byte) : (aluMul x y).toNat = (x.toNat * y.toNat) % 256 := by
  simp [aluMul]

@[simp] theorem aluMod_toNat (x y : Byte) : (aluMod x y).toNat = x.toNat % y.toNat := by
  have hx := x.isLt
  have hle : x.toNat % y.toNat ≤ x.toNat := Nat.mod_le _ _
  simp only [aluMod, BitVec.toNat_ofNat]
  omega

@[simp] theorem aluShl_toNat (x n : Byte) : (aluShl x n).toNat = (x.toNat * 2 ^ n.toNat) % 256 := by
  simp [aluShl]

@[simp] theorem aluShr_toNat (x n : Byte) : (aluShr x n).toNat = x.toNat / 2 ^ n.toNat := by
  have hx := x.isLt
  have hle : x.toNat / 2 ^ n.toNat ≤ x.toNat := Nat.div_le_self _ _
  rw [aluShr, BitVec.toNat_ofNat]
  exact Nat.mod_eq_of_lt (lt_of_le_of_lt hle hx)

/-! ## The flags (R100) -/

/-- CMP leaves exactly one of the three flag values (R15, R100). -/
theorem compareFlags_eq (x y : Byte) :
    compareFlags x y =
      if x.toNat = y.toNat then 0x01#8 else if x.toNat > y.toNat then 0x02#8 else 0x04#8 := rfl

end Sys2Proof.Machine
end

