-- ==== Sys2Proof/Laws/PerInstr.lean ====
section
/-!
SUPPORT. Per-instruction laws of the encoding: an instruction's bytes, whatever follows them in the fetch window,
decode to that instruction, and there are as many as its length says (R33, R45 to R51).
-/
namespace Sys2Proof.Laws.RoundTrip

/-- The instruction's bytes decode to it whatever two bytes follow, and their number is its length. -/
def Statement (i : Instr) : Prop :=
  (∀ x y : Byte, decodeBytes (encode i ++ [x, y]) = .ok i) ∧ (encode i).length = instrLength i

theorem hlt : Statement .hlt := ⟨fun _ _ => rfl, rfl⟩
theorem ldi (a v : Byte) : Statement (.ldi a v) := ⟨fun _ _ => rfl, rfl⟩
theorem prn (a : Byte) : Statement (.prn a) := ⟨fun _ _ => rfl, rfl⟩
theorem push (a : Byte) : Statement (.push a) := ⟨fun _ _ => rfl, rfl⟩
theorem pop (a : Byte) : Statement (.pop a) := ⟨fun _ _ => rfl, rfl⟩
theorem call (a : Byte) : Statement (.call a) := ⟨fun _ _ => rfl, rfl⟩
theorem ret : Statement .ret := ⟨fun _ _ => rfl, rfl⟩
theorem add (a b : Byte) : Statement (.add a b) := ⟨fun _ _ => rfl, rfl⟩
theorem mul (a b : Byte) : Statement (.mul a b) := ⟨fun _ _ => rfl, rfl⟩
theorem mod (a b : Byte) : Statement (.mod a b) := ⟨fun _ _ => rfl, rfl⟩
theorem and (a b : Byte) : Statement (.and a b) := ⟨fun _ _ => rfl, rfl⟩
theorem or (a b : Byte) : Statement (.or a b) := ⟨fun _ _ => rfl, rfl⟩
theorem xor (a b : Byte) : Statement (.xor a b) := ⟨fun _ _ => rfl, rfl⟩
theorem not (a : Byte) : Statement (.not a) := ⟨fun _ _ => rfl, rfl⟩
theorem shl (a b : Byte) : Statement (.shl a b) := ⟨fun _ _ => rfl, rfl⟩
theorem shr (a b : Byte) : Statement (.shr a b) := ⟨fun _ _ => rfl, rfl⟩
theorem cmp (a b : Byte) : Statement (.cmp a b) := ⟨fun _ _ => rfl, rfl⟩
theorem jmp (a : Byte) : Statement (.jmp a) := ⟨fun _ _ => rfl, rfl⟩
theorem jeq (a : Byte) : Statement (.jeq a) := ⟨fun _ _ => rfl, rfl⟩
theorem jne (a : Byte) : Statement (.jne a) := ⟨fun _ _ => rfl, rfl⟩
theorem jgt (a : Byte) : Statement (.jgt a) := ⟨fun _ _ => rfl, rfl⟩
theorem jlt (a : Byte) : Statement (.jlt a) := ⟨fun _ _ => rfl, rfl⟩
theorem jge (a : Byte) : Statement (.jge a) := ⟨fun _ _ => rfl, rfl⟩
theorem jle (a : Byte) : Statement (.jle a) := ⟨fun _ _ => rfl, rfl⟩

end Sys2Proof.Laws.RoundTrip
end

