-- ==== Sys2Proof/Tests/Slice0.lean ====
section
/-!
SUPPORT. Tests of the model against the spec's own encodings and test vectors (the id of the vector stands at each
test), the well-formedness smoke test, and for every obligation with hypotheses a witness that meets them together.
-/
namespace Sys2Proof.Machine

/-! ## Helpers -/

/-- A running core at `pc` with the bytes `code` there and the registers given; all else as reset. -/
def testState (pc : PcWord) (code : List Byte) (regs : List (RegIdx × Byte)) : State :=
  regs.foldl (fun s p => s.setReg p.1 p.2)
    { State.reset with pc := pc, running := true, mem := Memory.writeAll [] pc.toNat code }

/-- What `view` sees in the state one step leads to; none where the step gives no state. -/
def afterStep {α : Type} (s : State) (view : State → α) : Option α :=
  match step s with
  | .next t => some (view t)
  | .fault _ => none
  | .refused _ => none

/-- The fault a step answers, if it answers one. -/
def stepFault (s : State) : Option Fault :=
  match step s with
  | .next _ => none
  | .fault f => some f
  | .refused _ => none

/-! ## Well-formedness: each check refuses an ill-formed term -/

theorem test_wellFormed_accepts_legal_registers :
    [Instr.hlt, .ret, .ldi 7 255, .prn 7, .push 7, .pop 7, .call 7, .not 7, .jmp 7, .jeq 7, .jne 7, .jgt 7, .jlt 7, .jge 7, .jle 7,
      .add 0 7, .mul 0 7, .mod 0 7, .and 0 7, .or 0 7, .xor 0 7, .shl 0 7, .shr 0 7, .cmp 0 7].all (·.wellFormed) = true := by decide

theorem test_wellFormed_refuses_first_operand_8 :
    [Instr.ldi 8 0, .prn 8, .push 8, .pop 8, .call 8, .not 8, .jmp 8, .jeq 8, .jne 8, .jgt 8, .jlt 8, .jge 8, .jle 8,
      .add 8 0, .mul 8 0, .mod 8 0, .and 8 0, .or 8 0, .xor 8 0, .shl 8 0, .shr 8 0, .cmp 8 0].all (!·.wellFormed) = true := by decide

theorem test_wellFormed_refuses_second_operand_8 :
    [Instr.add 7 8, .mul 7 8, .mod 7 8, .and 7 8, .or 7 8, .xor 7 8, .shl 7 8, .shr 7 8, .cmp 7 8].all (!·.wellFormed) = true := by
  decide

/-! ## Decoding: one word per constructor, written out from the literals of R50 -/

theorem test_decode_hlt : decode 0b00000001#8 0b11111111#8 0b11111111#8 = .ok .hlt := rfl
theorem test_decode_ldi : decode 0b10000010#8 0b00000011#8 0b10000001#8 = .ok (.ldi 3 0x81) := rfl
theorem test_decode_prn : decode 0b01000111#8 0b00000101#8 0b11111111#8 = .ok (.prn 5) := rfl
theorem test_decode_push : decode 0b01000101#8 0b00000101#8 0b11111111#8 = .ok (.push 5) := rfl
theorem test_decode_pop : decode 0b01000110#8 0b00000101#8 0b11111111#8 = .ok (.pop 5) := rfl
theorem test_decode_call : decode 0b01010000#8 0b00000101#8 0b11111111#8 = .ok (.call 5) := rfl
theorem test_decode_ret : decode 0b00010001#8 0b11111111#8 0b11111111#8 = .ok .ret := rfl
theorem test_decode_add : decode 0b10100000#8 0b00000011#8 0b00000110#8 = .ok (.add 3 6) := rfl
theorem test_decode_mul : decode 0b10100010#8 0b00000011#8 0b00000110#8 = .ok (.mul 3 6) := rfl
theorem test_decode_mod : decode 0b10100100#8 0b00000011#8 0b00000110#8 = .ok (.mod 3 6) := rfl
theorem test_decode_and : decode 0b10101000#8 0b00000011#8 0b00000110#8 = .ok (.and 3 6) := rfl
theorem test_decode_or : decode 0b10101010#8 0b00000011#8 0b00000110#8 = .ok (.or 3 6) := rfl
theorem test_decode_xor : decode 0b10101011#8 0b00000011#8 0b00000110#8 = .ok (.xor 3 6) := rfl
theorem test_decode_not : decode 0b01101001#8 0b00000101#8 0b11111111#8 = .ok (.not 5) := rfl
theorem test_decode_shl : decode 0b10101100#8 0b00000011#8 0b00000110#8 = .ok (.shl 3 6) := rfl
theorem test_decode_shr : decode 0b10101101#8 0b00000011#8 0b00000110#8 = .ok (.shr 3 6) := rfl
theorem test_decode_cmp : decode 0b10100111#8 0b00000011#8 0b00000110#8 = .ok (.cmp 3 6) := rfl
theorem test_decode_jmp : decode 0b01010100#8 0b00000101#8 0b11111111#8 = .ok (.jmp 5) := rfl
theorem test_decode_jeq : decode 0b01010101#8 0b00000101#8 0b11111111#8 = .ok (.jeq 5) := rfl
theorem test_decode_jne : decode 0b01010110#8 0b00000101#8 0b11111111#8 = .ok (.jne 5) := rfl
theorem test_decode_jgt : decode 0b01010111#8 0b00000101#8 0b11111111#8 = .ok (.jgt 5) := rfl
theorem test_decode_jlt : decode 0b01011000#8 0b00000101#8 0b11111111#8 = .ok (.jlt 5) := rfl
theorem test_decode_jge : decode 0b01011010#8 0b00000101#8 0b11111111#8 = .ok (.jge 5) := rfl
theorem test_decode_jle : decode 0b01011001#8 0b00000101#8 0b11111111#8 = .ok (.jle 5) := rfl

/-- R55: the bytes V-F1 to V-F3 name, and neighbours of the table. -/
theorem test_decode_rejects_by_name :
    [0x00#8, 0x02#8, 0xFF#8, 0x44#8, 0x5B#8, 0xA1#8, 0xA9#8, 0xAE#8].all
      (fun b => decide (decode b 0 0 = .error (.unknownOpcode b))) = true := by decide

theorem test_decodeBytes_needs_three_bytes : decodeBytes [0x01#8, 0x00#8] = .error .truncatedWindow := rfl

/-- The table's numbering: byte 0 in bits 7..0, byte 1 in 15..8, byte 2 in 23..16. -/
theorem test_decodeTableWord_order : decodeTableWord 24 0x080082 = some (.ldi 0 8) := by decide

theorem test_decodeTableWord_short : decodeTableWord 8 0xA0 = some (.add 0 0) := by decide

theorem test_withFetchWord_runs_next :
    afterStep (State.reset.withFetchWord 24 0x080082) (fun t => (t.reg 0, t.pc)) = some (8, 3) := by decide

/-! ## Single steps, from the vectors of 95_test_vectors.md -/

/-- V-F9. -/
theorem test_hlt_ignores_operand_bytes :
    afterStep (testState 0 [1, 0xFF, 0xFF] []) (fun t => (t.running, t.pc, t.err)) =
      some (false, 1, none) := by decide

/-- V-F7. -/
theorem test_hlt_at_253 :
    afterStep (testState 253 [1] []) (fun t => (t.running, t.pc)) =
      some (false, 254) := by decide

/-- V-F8. -/
theorem test_ldi_at_253_leaves_256 :
    afterStep (testState 253 [0x82, 1, 7] []) (fun t => (t.reg 1, t.pc)) =
      some (7, 256) := by decide

/-- V-L3. -/
theorem test_ldi_sets_sp :
    afterStep (testState 0 [0x82, 7, 0x20] []) (fun t => (t.sp, t.pc)) =
      some (0x20, 3) := by decide

/-- V-L5. -/
theorem test_prn :
    afterStep (testState 9 [0x47, 0] [(0, 72)]) (fun t => (t.out, t.pc)) =
      some ([72], 11) := by decide

/-- V-L7. -/
theorem test_prn_sp :
    afterStep (testState 0 [0x47, 7] []) (fun t => (t.out, t.pc)) =
      some ([244], 2) := by decide

/-- V-S3. -/
theorem test_push_sp :
    afterStep (testState 0 [0x45, 7] []) (fun t => (t.sp, Memory.read t.mem 0xF3, t.pc)) =
      some (0xF3, 0xF3, 2) := by decide

/-- V-S6. -/
theorem test_push_wraps :
    afterStep (testState 6 [0x45, 0] [(7, 0), (0, 0x5A)]) (fun t => (t.sp, Memory.read t.mem 0xFF, t.pc)) =
      some (0xFF, 0x5A, 8) := by decide

/-- V-S4. -/
theorem test_pop_sp :
    afterStep (placeWindow 0x46 7 0 { State.reset with mem := [(0xF4, 0x20)] }) (fun t => (t.sp, t.pc)) =
      some (0x21, 2) := by decide

/-- V-S7. -/
theorem test_pop_wraps :
    afterStep (placeWindow 0x46 0 0 (State.setSp { State.reset with mem := [(0xFF, 0x77)], pc := 3 } 0xFF))
      (fun t => (t.reg 0, t.sp, t.pc)) = some (0x77, 0, 5) := by decide

/-- V-S10. -/
theorem test_call_sp :
    afterStep (testState 0 [0x50, 7] []) (fun t => (t.sp, Memory.read t.mem 0xF3, t.pc)) =
      some (0xF3, 2, 0xF3) := by decide

/-- V-S14. -/
theorem test_call_at_253 :
    afterStep (testState 253 [0x50, 0] [(0, 0x10)]) (fun t => (Memory.read t.mem 0xF3, t.sp, t.pc)) =
      some (0xFF, 0xF3, 0x10) := by decide

/-- V-S11. -/
theorem test_ret :
    afterStep (placeWindow 0x11 0 0 (State.setSp { State.reset with mem := [(0xF3, 8)], pc := 0x15 } 0xF3))
      (fun t => (t.pc, t.sp)) = some (8, 0xF4) := by decide

/-- V-S12. -/
theorem test_ret_nothing_pushed :
    afterStep (testState 0 [0x11] []) (fun t => (t.pc, t.sp)) =
      some (0, 0xF5) := by decide

/-- V-A1. -/
theorem test_add_wraps :
    afterStep (testState 0 [0xA0, 0, 1] [(0, 250), (1, 10)]) (fun t => (t.reg 0, t.pc, t.fl)) =
      some (4, 3, 0) := by decide

/-- V-A5. -/
theorem test_add_same_register :
    afterStep (testState 0 [0xA0, 0, 0] [(0, 0x80), (1, 0)]) (fun t => (t.reg 0, t.pc, t.fl)) =
      some (0, 3, 0) := by decide

/-- V-A8. -/
theorem test_mul_keeps_low_byte :
    afterStep (testState 0 [0xA2, 0, 1] [(0, 255), (1, 255)]) (fun t => (t.reg 0, t.pc, t.fl)) =
      some (1, 3, 0) := by decide

/-- V-A7. -/
theorem test_mul_wraps_to_zero :
    afterStep (testState 0 [0xA2, 0, 1] [(0, 16), (1, 16)]) (fun t => (t.reg 0, t.pc, t.fl)) =
      some (0, 3, 0) := by decide

/-- V-A33. -/
theorem test_mod :
    afterStep (testState 0 [0xA4, 0, 1] [(0, 255), (1, 128)]) (fun t => (t.reg 0, t.pc, t.fl)) =
      some (127, 3, 0) := by decide

/-- V-A35. -/
theorem test_mod_by_zero_changes_nothing :
    afterStep (testState 6 [0xA4, 0, 1] [(0, 17)]) (fun t => (t.reg 0, t.pc, t.running, t.err)) =
      some (17, 6, true, some (.divideByZero 0 1)) := by decide

/-- V-A21. -/
theorem test_and :
    afterStep (testState 0 [0xA8, 0, 1] [(0, 0xCA), (1, 0xAC)]) (fun t => (t.reg 0, t.pc, t.fl)) =
      some (0x88, 3, 0) := by decide

/-- V-A22. -/
theorem test_or :
    afterStep (testState 0 [0xAA, 0, 1] [(0, 0xCA), (1, 0xAC)]) (fun t => (t.reg 0, t.pc, t.fl)) =
      some (0xEE, 3, 0) := by decide

/-- V-A23. -/
theorem test_xor :
    afterStep (testState 0 [0xAB, 0, 1] [(0, 0xCA), (1, 0xAC)]) (fun t => (t.reg 0, t.pc, t.fl)) =
      some (0x66, 3, 0) := by decide

/-- V-A24. -/
theorem test_xor_same_register :
    afterStep (testState 0 [0xAB, 0, 0] [(0, 0x5D), (1, 0)]) (fun t => (t.reg 0, t.pc, t.fl)) =
      some (0, 3, 0) := by decide

/-- V-A26. -/
theorem test_not :
    afterStep (testState 0 [0x69, 0] [(0, 0xCA), (1, 0)]) (fun t => (t.reg 0, t.pc, t.fl)) =
      some (0x35, 2, 0) := by decide

/-- V-A9. -/
theorem test_shl_is_stored :
    afterStep (testState 0 [0xAC, 0, 1] [(0, 0x43), (1, 2)]) (fun t => (t.reg 0, t.pc, t.fl)) =
      some (0x0C, 3, 0) := by decide

/-- V-A13. -/
theorem test_shl_by_width :
    afterStep (testState 0 [0xAC, 0, 1] [(0, 0xFF), (1, 8)]) (fun t => (t.reg 0, t.pc, t.fl)) =
      some (0, 3, 0) := by decide

/-- V-A15. -/
theorem test_shr_is_logical :
    afterStep (testState 0 [0xAD, 0, 1] [(0, 0x80), (1, 1)]) (fun t => (t.reg 0, t.pc, t.fl)) =
      some (0x40, 3, 0) := by decide

/-- V-A18. -/
theorem test_shr_by_nine :
    afterStep (testState 0 [0xAD, 0, 1] [(0, 0xFF), (1, 9)]) (fun t => (t.reg 0, t.pc, t.fl)) =
      some (0, 3, 0) := by decide

/-- V-C2. -/
theorem test_cmp_clears_the_old_flag :
    afterStep ({ testState 0 [0xA7, 0, 1] [(0, 9), (1, 3)] with fl := 1 }) (fun t => (t.fl, t.pc)) =
      some (2, 3) := by decide

/-- V-C4. -/
theorem test_cmp_is_unsigned :
    afterStep ({ testState 0 [0xA7, 0, 1] [(0, 0x80), (1, 0x7F)] with fl := 4 }) (fun t => (t.fl, t.pc)) =
      some (2, 3) := by decide

/-- V-J3. -/
theorem test_jmp_to_254_completes :
    afterStep (testState 3 [0x54, 0] [(0, 0xFE)]) (fun t => (t.pc, t.err)) =
      some (254, none) := by decide

/-- V-J2. -/
theorem test_jeq_taken :
    afterStep ({ testState 12 [0x55, 2] [(2, 0x40)] with fl := 1 }) (fun t => t.pc) =
      some 0x40 := by decide

/-- V-J2. -/
theorem test_jeq_not_taken :
    afterStep ({ testState 12 [0x55, 2] [(2, 0x40)] with fl := 2 }) (fun t => t.pc) =
      some 14 := by decide

/-- V-J2. -/
theorem test_jne_taken :
    afterStep ({ testState 12 [0x56, 2] [(2, 0x40)] with fl := 2 }) (fun t => t.pc) =
      some 0x40 := by decide

/-- V-J2. -/
theorem test_jne_not_taken :
    afterStep ({ testState 12 [0x56, 2] [(2, 0x40)] with fl := 1 }) (fun t => t.pc) =
      some 14 := by decide

/-- V-J2. -/
theorem test_jgt_taken :
    afterStep ({ testState 12 [0x57, 2] [(2, 0x40)] with fl := 2 }) (fun t => t.pc) =
      some 0x40 := by decide

/-- V-J2. -/
theorem test_jgt_not_taken :
    afterStep ({ testState 12 [0x57, 2] [(2, 0x40)] with fl := 1 }) (fun t => t.pc) =
      some 14 := by decide

/-- V-J2. -/
theorem test_jlt_taken :
    afterStep ({ testState 12 [0x58, 2] [(2, 0x40)] with fl := 4 }) (fun t => t.pc) =
      some 0x40 := by decide

/-- V-J2. -/
theorem test_jlt_not_taken :
    afterStep ({ testState 12 [0x58, 2] [(2, 0x40)] with fl := 1 }) (fun t => t.pc) =
      some 14 := by decide

/-- V-J2. -/
theorem test_jge_taken :
    afterStep ({ testState 12 [0x5A, 2] [(2, 0x40)] with fl := 1 }) (fun t => t.pc) =
      some 0x40 := by decide

/-- V-J2. -/
theorem test_jge_not_taken :
    afterStep ({ testState 12 [0x5A, 2] [(2, 0x40)] with fl := 4 }) (fun t => t.pc) =
      some 14 := by decide

/-- V-J2. -/
theorem test_jle_taken :
    afterStep ({ testState 12 [0x59, 2] [(2, 0x40)] with fl := 1 }) (fun t => t.pc) =
      some 0x40 := by decide

/-- V-J2. -/
theorem test_jle_not_taken :
    afterStep ({ testState 12 [0x59, 2] [(2, 0x40)] with fl := 2 }) (fun t => t.pc) =
      some 14 := by decide

/-- V-J2, all of it: for fl = E, G, L in turn, the conditional jumps JEQ, JNE, JGT, JLT, JGE, JLE. -/
theorem test_conditions_table :
    [0x01#8, 0x02#8, 0x04#8, 0x00#8].map (fun f => [condEq f, condNe f, condGt f, condLt f, condGe f, condLe f]) =
      [[true, false, false, false, true, true], [false, true, true, false, true, false],
        [false, true, false, true, false, true], [false, true, false, false, false, false]] := by decide

/-! ## Errors, from V-F1 to V-F15 -/

/-- V-F1. -/
theorem test_error_unknown_zero :
    afterStep (testState 0 [0] []) (fun t => (t.err, t.pc, t.running)) =
      some (some (.unknownOpcode 0 0), 0, true) := by decide

/-- V-F2, S7. -/
theorem test_error_unknown_ff :
    afterStep (testState 0 [0xFF] []) (fun t => (t.err, t.pc, t.running)) =
      some (some (.unknownOpcode 0xFF 0), 0, true) := by decide

/-- V-F4. -/
theorem test_error_fetch_at_254 :
    afterStep (testState 254 [1] []) (fun t => (t.err, t.pc, t.running)) =
      some (some (.outOfBounds 256), 254, true) := by decide

/-- V-F5. -/
theorem test_error_fetch_at_255 :
    afterStep (testState 255 [1] []) (fun t => (t.err, t.pc, t.running)) =
      some (some (.outOfBounds 256), 255, true) := by decide

/-- V-F6. -/
theorem test_error_fetch_before_dispatch :
    afterStep (testState 254 [0xFF] []) (fun t => (t.err, t.pc, t.running)) =
      some (some (.outOfBounds 256), 254, true) := by decide

/-- V-F8, second step. -/
theorem test_error_fetch_at_256 :
    afterStep (testState 256 [] []) (fun t => (t.err, t.pc, t.running)) =
      some (some (.outOfBounds 256), 256, true) := by decide

/-- V-F10. -/
theorem test_error_bad_index_first :
    afterStep (testState 0 [0x82, 8, 5] []) (fun t => (t.err, t.pc, t.running)) =
      some (some (.badRegisterIndex 0x82 0 8), 0, true) := by decide

/-- V-F11. -/
theorem test_error_bad_index_second :
    afterStep (testState 0 [0xA0, 0, 8] []) (fun t => (t.err, t.pc, t.running)) =
      some (some (.badRegisterIndex 0xA0 0 8), 0, true) := by decide

/-- V-F12. -/
theorem test_error_bad_index_untaken_jump :
    afterStep (testState 0 [0x55, 9] []) (fun t => (t.err, t.pc, t.running)) =
      some (some (.badRegisterIndex 0x55 0 9), 0, true) := by decide

/-- V-F13. -/
theorem test_error_bad_index_before_zero :
    afterStep (testState 0 [0xA4, 9, 1] []) (fun t => (t.err, t.pc, t.running)) =
      some (some (.badRegisterIndex 0xA4 0 9), 0, true) := by decide

/-- R61: after an error no step exists; and none on a core that is not running. -/
theorem test_stopped_core_faults :
    (stepFault { testState 0 [] [] with err := some (.unknownOpcode 0 0) }, stepFault State.reset) =
      (some (.fatalError (.unknownOpcode 0 0)), some .notRunning) := by decide

/-! ## Memory, host, text -/

/-- The canonical form: rising addresses, and storing 0 removes the entry. -/
theorem test_memory_is_canonical :
    Memory.write (Memory.write (Memory.write [] 9 1) 3 2) 9 0 = [(3, 2#8)] := by decide

/-- R144: two bytes land at 0 and 1; U18 (below): 257 bytes are refused. -/
theorem test_load :
    (match hostLoad [0x82, 0x07] State.reset with | .next t => some t.mem | _ => none) =
      some [(0, 0x82#8), (1, 7#8)] := by decide

theorem test_load_too_long : hostLoad (List.replicate 257 0) State.reset = .refused .loadTooLong := by
  rw [hostLoad, if_neg (by decide), if_neg (by rw [List.length_replicate]; decide)]

/-- V-F15: run is refused after an error; R60: it is allowed after reset. -/
theorem test_run :
    (match hostRun { State.reset with err := some (.outOfBounds 256) } with | .refused r => some r | _ => none) =
        some .runAfterError ∧
      (match hostRun State.reset with | .next t => some t.running | _ => none) = some true := by decide

/-- R57's own example line, a comment line and a malformed line. -/
theorem test_readLine :
    readLine ['1', '0', '0', '0', '0', '0', '1', '0', ' ', '#'] = .byte 0x82 ∧ readLine ['#', '1'] = .ignored ∧
      readLine ['1', '0', '2'] = .malformed := by decide

/-- R78: 0 as 0, 255 as 255. -/
theorem test_sinkLine : sinkLine 0 = ['0'] ∧ sinkLine 72 = ['7', '2'] ∧ sinkLine 255 = ['2', '5', '5'] := by decide

/-! ## Witnesses: for each obligation with hypotheses, a state and operands that meet them together -/

/-- A core about to execute LDI R1,7 at 253, the highest address that can be fetched. -/
def atTop : State := testState 253 [0x82, 1, 7] []

theorem atTop_inv : StateInv atTop :=
  ⟨by unfold pcLegal; decide, .inl (by decide), fun _ => rfl, by decide⟩

theorem witness_EveryStepKeepsTheInvariant : ∃ t, StateInv atTop ∧ step atTop = .next t ∧ t.pc = 256 :=
  ⟨_, atTop_inv, rfl, by decide⟩

theorem witness_HostOperationsKeepTheInvariant :
    StateInv State.reset ∧ (∃ t, hostReset State.reset = .next t) ∧ (∃ t, hostRun State.reset = .next t) ∧
      ∃ t, hostLoad [1] State.reset = .next t :=
  ⟨⟨by unfold pcLegal; decide, .inl rfl, fun h => absurd rfl h, rfl⟩, ⟨_, rfl⟩, ⟨_, rfl⟩, ⟨_, rfl⟩⟩

theorem witness_MemReadGivesTheCellOrOutOfBounds :
    memRead 255 State.reset = .ok 0 ∧ memRead 256 State.reset = .error (.outOfBounds 256) := ⟨rfl, rfl⟩

theorem witness_MemWriteStoresOneByteAndNothingElse :
    (∃ t, memWrite 255 9 State.reset = .ok t ∧ Memory.read t.mem 255 = 9) ∧
      memWrite 256 9 State.reset = .error (.outOfBounds 256) := ⟨⟨_, rfl, by decide⟩, rfl⟩

theorem witness_OpcodeBitsMatchTheLength : opcodeOf (.add 0 1) = opcodeOf (.add 2 3) := rfl

theorem witness_StepRunsTheDecodedInstruction :
    atTop.running = true ∧ atTop.err = none ∧ atTop.pc.toNat ≤ 253 ∧
      decode (codeByte atTop 0) (codeByte atTop 1) (codeByte atTop 2) = .ok (.ldi 1 7) := by decide

theorem witness_FetchWindowMustFitInMemory :
    [testState 254 [] [], testState 255 [] [], testState 256 [] []].all
      (fun s => s.running && decide (s.err = none) && decide (254 ≤ s.pc.toNat) && decide (s.pc.toNat ≤ 256)) = true ∧
    atTop.pc.toNat = 253 := by decide

theorem witness_UnknownOpcodeIsRaised :
    (testState 253 [] []).running = true ∧ (testState 253 [] []).err = none ∧
      (testState 253 [] []).pc.toNat ≤ 253 ∧ codeByte (testState 253 [] []) 0 ∉ opcodes := by decide

theorem witness_CoreStepsExactlyWhileRunningWithoutError :
    (∃ t, step atTop = .next t) ∧ (raise (.outOfBounds 256) atTop).err = some (.outOfBounds 256) ∧
      State.reset.err = none ∧ State.reset.running = false := ⟨⟨_, rfl⟩, rfl, rfl, rfl⟩

/-- Every clause of firstError is met by a running, healthy state, the last by one that executes. -/
theorem witness_StepRaisesTheFirstErrorInOrder :
    [testState 254 [0xFF] [], testState 253 [0xFF] [], testState 0 [0xA4, 8, 8] [], testState 0 [0xA4, 7, 8] [],
        testState 0 [0xA4, 7, 1] [], testState 0 [0xA4, 7, 1] [(1, 1)], testState 0 [0x01, 8, 8] [],
        testState 0 [0x69, 7, 8] []].map firstError =
      [some (.outOfBounds 256), some (.unknownOpcode 0xFF 253), some (.badRegisterIndex 0xA4 0 8),
        some (.badRegisterIndex 0xA4 0 8), some (.divideByZero 7 1), none, none, none] := by decide

theorem witness_FailingInstructionChangesNothing :
    ∃ t, State.reset.err = none ∧ exec (.mod 0 1) State.reset = .next t ∧ t.err ≠ none :=
  ⟨_, rfl, rfl, by decide⟩

/-- The hypotheses of TakesOneRegister, TakesTwoRegisters and of LDI's clause, at the boundary. -/
theorem witness_TakesRegisters : 7 < (8#8).toNat ∧ (7#8).toNat ≤ 7 := by decide

/-- HLT at 253, with other bytes behind it, and its opcode byte at 254: R75's step clauses; and a core stopped by it. -/
theorem witness_HltStopsAndAdvancesByOne :
    [testState 253 [0x01, 0xFF, 0xFF] [], testState 254 [0x01] []].all
      (fun s => s.running && decide (s.err = none) && decide (codeByte s 0 = 0x01#8)) = true ∧
    ∃ t, exec .hlt atTop = .next t ∧ atTop.running = true ∧ t.running = false := ⟨by decide, _, rfl, rfl, rfl⟩

theorem witness_ModStoresTheRemainderOrRaises : State.reset.reg 7 ≠ 0 ∧ State.reset.reg 1 = 0 := by decide

theorem witness_ConditionalJumpsFollowTheComparison : State.reset.fl = 0 := rfl

theorem witness_RegisterOperandsAreValidatedFirst :
    (Instr.add 7 8).regOperands.find? (fun a => decide (7 < a.toNat)) = some 8 ∧
      (Instr.add 7 7).regOperands.find? (fun a => decide (7 < a.toNat)) = none ∧ State.reset.err = none := by decide

theorem witness_PcAdvancesByTheLength :
    ∃ t u, atTop.pc.toNat ≤ 253 ∧ exec (.ldi 1 7) atTop = .next t ∧ t.err = none ∧
      exec (.jeq 1) atTop = .next u ∧ u.err = none ∧ isTransfer (.ldi 1 7) = false ∧ isTransfer (.jeq 1) = true :=
  ⟨_, _, by decide, rfl, rfl, rfl, by decide, rfl, rfl⟩

theorem witness_OnlyPushAndCallWriteMemory :
    ∃ t, step (testState 0 [0x45, 7] []) = .next t ∧ Memory.read t.mem 0xF3 = 0xF3 := ⟨_, rfl, by decide⟩

theorem witness_RegisterWritesFollowTheTable :
    ∃ t, exec (.push 0) State.reset = .next t ∧ ¬ mayWriteReg (.push 0) 0 :=
  ⟨_, rfl, by unfold mayWriteReg; decide⟩

theorem witness_OnlyCmpOfTheAluTouchesTheFlags :
    isPlainAlu (.add 0 1) = true ∧ (∃ t, exec (.add 0 1) State.reset = .next t) ∧
      ∃ t, exec (.cmp 0 1) State.reset = .next t := ⟨rfl, ⟨_, rfl⟩, ⟨_, rfl⟩⟩

theorem witness_OnlyCmpChangesTheFlags :
    ∃ t, step (testState 253 [0xA7, 0, 1] []) = .next t ∧ t.fl ≠ (testState 253 [0xA7, 0, 1] []).fl :=
  ⟨_, rfl, by decide⟩

theorem witness_OnlyPrnExtendsTheOutput :
    ∃ t, step (testState 0 [0x47, 7] []) = .next t ∧ t.out = [0xF4] := ⟨_, rfl, by decide⟩

theorem witness_OutputIsNeverRead : ∃ t, step (testState 0 [0x47, 7] []) = .next t := ⟨_, rfl⟩

theorem witness_OnlyHltClearsRunning :
    (∃ t, hostRun State.reset = .next t) ∧ (∃ t, exec .hlt atTop = .next t ∧ t.running = false) ∧
      ∃ t, step (testState 0 [] []) = .next t ∧ t.err ≠ none := ⟨⟨_, rfl⟩, ⟨_, rfl, rfl⟩, ⟨_, rfl, by decide⟩⟩

theorem witness_FetchSeesAPushedByte :
    ∃ t, (testState 251 [0x45, 0] [(7, 255), (0, 9)]).pc.toNat ≤ 251 ∧
      exec (.push (regByte 0)) (testState 251 [0x45, 0] [(7, 255), (0, 9)]) = .next t ∧
        t.pc.toNat + 1 = (spDec (testState 251 [0x45, 0] [(7, 255), (0, 9)])).sp.toNat :=
  ⟨_, by decide, rfl, by decide⟩

theorem witness_ReturnResumesAfterTheCall :
    ∃ t, atTop.pc.toNat ≤ 253 ∧ exec (.call (regByte 1)) atTop = .next t ∧ t.sp = t.sp ∧
      Memory.read t.mem t.sp.toNat = 255 := ⟨_, by decide, rfl, rfl, by decide⟩

theorem witness_BalancedRoundLeavesTheRegisters : atTop.pc.toNat ≤ 253 := by decide

theorem witness_RunSetsRunningOrIsRefused :
    (State.reset.err = none ∧ State.reset.running = false) ∧ (raise (.outOfBounds 256) atTop).err ≠ none ∧
      atTop.err = none ∧ atTop.running = true := by decide

theorem witness_LoadPlacesTheBytesFromZero :
    coreActive State.reset = false ∧ (List.replicate 256 (1 : Byte)).length ≤ 256 ∧
      256 < (List.replicate 257 (1 : Byte)).length :=
  ⟨rfl, by rw [List.length_replicate], by rw [List.length_replicate]; decide⟩

theorem witness_HostActsOnlyOnAStoppedCore :
    (atTop.running = true ∧ atTop.err = none) ∧ State.reset.running = false ∧
      (raise (.outOfBounds 256) atTop).err ≠ none := by decide

theorem witness_RunResumesAfterHlt :
    ∃ t, step (testState 253 [0x01] []) = .next t ∧ t.running = false ∧ t.pc = 254 := ⟨_, rfl, rfl, by decide⟩

/-- A run that ends by HLT (S1) and one that ends by an error (V-F1). -/
theorem witness_EveryRunEndsByHltOrByAnError :
    (∃ t, RunEnds { State.reset with mem := [(0, 1)] } t ∧ t.running = false) ∧
      ∃ t, RunEnds State.reset t ∧ t.err ≠ none :=
  ⟨⟨_, ⟨_, rfl, .tail (.refl _) rfl, rfl⟩, rfl⟩, ⟨_, ⟨_, rfl, .tail (.refl _) rfl, rfl⟩, by decide⟩⟩

theorem witness_LoaderLineGivesItsByte : '#' ≠ '0' ∧ '#' ≠ '1' := by decide

end Sys2Proof.Machine
end

section
/-!
PROOFS. The state after reset (R21) and the running flag (R16). The key fact is that `running` is an input of no
instruction: `setRunning` commutes with every effect but HLT's, from which its frame follows too.
-/
namespace Sys2Proof.Machine

/-! ## Reset (R21) -/

theorem reset_reg (r : RegIdx) : State.reset.reg r = if r = 7 then 0xF4#8 else 0x00#8 := by
  revert r
  decide

/-- Settles O1: the registers by the table of eight values, memory by the empty list's reads, the rest by definition. -/
theorem resetLeavesTheTabledValues : Obligations.ResetLeavesTheTabledValues :=
  ⟨reset_reg, rfl, rfl, rfl, rfl, Memory.read_nil, rfl⟩

/-! ## The running flag (R16) -/

@[simp] theorem State.setRunning_self (s : State) : s.setRunning s.running = s := rfl

/-- The outcome of a jump, taken or not, commutes with setting `running`. -/
theorem State.setRunning_jump (taken : Bool) (s : State) (target : Byte) (len : PcWord) (b : Bool) :
    (if taken then s.jumpTo target else s.advance len).setRunning b =
      if taken then (s.setRunning b).jumpTo target else (s.setRunning b).advance len := by
  cases taken <;> rfl

/-- Every effect but HLT's is the same under another value of `running`, which it hands on. -/
theorem Effect.exec_setRunning {i : Instr} {s t : State} (effect : Effect s i t) (notHlt : i ≠ .hlt) (b : Bool) :
    exec i (s.setRunning b) = .next (t.setRunning b) := by
  cases effect with
  | badFirst i a first bad => exact exec_bad_first (s.setRunning b) first bad
  | badSecond i ra c both bad => exact exec_bad_second (s.setRunning b) both bad
  | modZero ra rb zero => exact exec_mod_zero (s.setRunning b) ra rb zero
  | hlt => exact absurd rfl notHlt
  | ldi ra v => exact exec_ldi (s.setRunning b) ra v
  | prn ra => exact exec_prn (s.setRunning b) ra
  | push ra => exact exec_push (s.setRunning b) ra
  | pop ra => exact exec_pop (s.setRunning b) ra
  | call ra => exact exec_call (s.setRunning b) ra
  | ret => exact exec_ret (s.setRunning b)
  | add ra rb => exact exec_add (s.setRunning b) ra rb
  | mul ra rb => exact exec_mul (s.setRunning b) ra rb
  | mod ra rb nonzero => exact exec_mod (s.setRunning b) ra rb nonzero
  | and ra rb => exact exec_and (s.setRunning b) ra rb
  | or ra rb => exact exec_or (s.setRunning b) ra rb
  | xor ra rb => exact exec_xor (s.setRunning b) ra rb
  | shl ra rb => exact exec_shl (s.setRunning b) ra rb
  | shr ra rb => exact exec_shr (s.setRunning b) ra rb
  | not ra => exact exec_not (s.setRunning b) ra
  | cmp ra rb => exact exec_cmp (s.setRunning b) ra rb
  | jmp ra => exact exec_jmp (s.setRunning b) ra
  | jeq ra => rw [State.setRunning_jump]; exact exec_jeq (s.setRunning b) ra
  | jne ra => rw [State.setRunning_jump]; exact exec_jne (s.setRunning b) ra
  | jgt ra => rw [State.setRunning_jump]; exact exec_jgt (s.setRunning b) ra
  | jlt ra => rw [State.setRunning_jump]; exact exec_jlt (s.setRunning b) ra
  | jge ra => rw [State.setRunning_jump]; exact exec_jge (s.setRunning b) ra
  | jle ra => rw [State.setRunning_jump]; exact exec_jle (s.setRunning b) ra

/-- No instruction reads `running`: HLT sets it to false whatever it was, the others hand it on. -/
theorem exec_setRunning {i : Instr} {s t : State} (h : exec i s = .next t) (b : Bool) :
    exec i (s.setRunning b) = .next (t.setRunning (if i = .hlt then false else b)) := by
  by_cases hi : i = .hlt
  · subst hi
    rw [exec_hlt, Host.Outcome.next.injEq] at h
    rw [← h, if_pos rfl]
    exact exec_hlt (s.setRunning b)
  · rw [if_neg hi]
    exact (effect_of_exec h).exec_setRunning hi b

/-- The frame of `running`: the case of `exec_setRunning` in which the flag is set to the value it has. -/
theorem exec_running {i : Instr} {s t : State} (h : exec i s = .next t) :
    t.running = if i = .hlt then false else s.running := by
  have same := exec_setRunning h s.running
  rw [State.setRunning_self, h, Host.Outcome.next.injEq] at same
  rw [same, State.setRunning_running]

/-- A core that steps is running. -/
theorem running_of_step {s t : State} (h : step s = .next t) : s.running = true :=
  (step_cases h).1

/-- A step that latches an error leaves the core running: HLT, which alone clears the flag, latches none. -/
theorem running_of_step_err {s t : State} (h : step s = .next t) (err : t.err ≠ none) : t.running = true := by
  obtain ⟨running, noErr, ⟨e, -, rfl⟩ | ⟨i, -, hexec⟩⟩ := step_cases h
  · rw [raise_running, running]
  · have notHlt : i ≠ .hlt := by
      rintro rfl
      rw [exec_hlt, Host.Outcome.next.injEq] at hexec
      exact err (by rw [← hexec, State.advance_err, State.setRunning_err, noErr])
    rw [exec_running hexec, if_neg notHlt, running]

theorem running_of_hostRun {s t : State} (h : hostRun s = .next t) : t.running = true := by
  obtain ⟨-, -, rfl⟩ := hostRun_eq_next h
  rfl

/-- Settles O45: no effect reads `running` and HLT's alone sets it (`exec_setRunning`); the rest is the inversion of
`step` and of `hostRun`. -/
theorem onlyHltClearsRunning : Obligations.OnlyHltClearsRunning :=
  ⟨rfl, fun _ _ => running_of_hostRun, fun _ _ _ => exec_running, fun _ _ => running_of_step_err,
    fun _ _ _ b h => exec_setRunning h b, fun _ _ => running_of_step⟩

end Sys2Proof.Machine
end

section
/-!
PROOFS. Memory reads (R31).
-/
namespace Sys2Proof.Machine

/-- Settles O5: the two sides of the bound 256, by the read lemma of each. -/
theorem memReadGivesTheCellOrOutOfBounds : Obligations.MemReadGivesTheCellOrOutOfBounds := by
  intro s a
  constructor
  · intro inBounds
    exact memRead_of_lt s (Nat.lt_succ_of_le inBounds)
  · intro above
    exact memRead_of_ge s (Nat.succ_le_of_lt above)

end Sys2Proof.Machine
end

section
/-!
PROOFS. The opcode map (R50). The key fact is that the opcode bytes fall into one row for each format: an instruction's
opcode stands in the row of its format, and the decoder answers a byte of a row with an instruction of that opcode and
that format. So no byte stands in two rows, and the rows together are the bytes that decode.
-/
namespace Sys2Proof.Machine

/-- The opcode bytes of each format (R46 to R50). -/
def opcodeRow : Format → List Byte
  | .z => opcodesZ
  | .r => [0x45#8, 0x46#8, 0x47#8, 0x50#8, 0x54#8, 0x55#8, 0x56#8, 0x57#8, 0x58#8, 0x59#8, 0x5A#8, 0x69#8]
  | .ri => [0x82#8]
  | .rr => opcodesTwoReg

theorem opcodes_eq_rows : opcodes = opcodeRow .z ++ (opcodeRow .r ++ opcodeRow .ri) ++ opcodeRow .rr := rfl

theorem mem_opcodes_iff_mem_row (op : Byte) : op ∈ opcodes ↔ ∃ f, op ∈ opcodeRow f := by
  simp only [opcodes_eq_rows, List.mem_append]
  constructor
  · rintro ((h | h | h) | h)
    exacts [⟨.z, h⟩, ⟨.r, h⟩, ⟨.ri, h⟩, ⟨.rr, h⟩]
  · rintro ⟨f, h⟩
    cases f <;> simp only [h, true_or, or_true]

theorem opcodeOf_mem_row (i : Instr) : opcodeOf i ∈ opcodeRow (formatOf i) := by
  cases i <;> simp [opcodeOf, formatOf, opcodeRow, opcodesZ, opcodesTwoReg]

/-- The decoder answers a byte of a row with an instruction of that opcode and that format, whatever the operands. -/
theorem decode_of_mem_row {f : Format} {op : Byte} (h : op ∈ opcodeRow f) (opa opb : Byte) :
    ∃ i, decode op opa opb = .ok i ∧ opcodeOf i = op ∧ formatOf i = f := by
  revert op
  cases f <;>
    simp only [opcodeRow, opcodesZ, opcodesTwoReg, List.forall_mem_cons, List.not_mem_nil, false_implies,
      implies_true, and_true] <;>
    and_intros <;> exact ⟨_, rfl, rfl, rfl⟩

/-- No byte stands in two rows, because the decoder's answer has one format. -/
theorem format_unique_of_mem_row {f g : Format} {op : Byte} (hf : op ∈ opcodeRow f) (hg : op ∈ opcodeRow g) :
    f = g := by
  obtain ⟨i, decodesI, -, rfl⟩ := decode_of_mem_row hf 0 0
  obtain ⟨j, decodesJ, -, rfl⟩ := decode_of_mem_row hg 0 0
  rw [Except.ok.inj (decodesI.symm.trans decodesJ)]

theorem formatOf_eq_iff_mem_row (i : Instr) (f : Format) : formatOf i = f ↔ opcodeOf i ∈ opcodeRow f := by
  constructor
  · rintro rfl
    exact opcodeOf_mem_row i
  · exact format_unique_of_mem_row (opcodeOf_mem_row i)

theorem formatOf_eq_ri_iff (i : Instr) : formatOf i = .ri ↔ opcodeOf i = 0x82#8 :=
  (formatOf_eq_iff_mem_row i .ri).trans List.mem_singleton

theorem instrLength_eq_length_encode (i : Instr) : instrLength i = (encode i).length := by
  cases i <;> rfl

theorem opcodes_nodup : opcodes.Nodup := by decide

/-- A byte decodes to an instruction that has it as its opcode exactly when it is one of the 24 (R50, R65). -/
theorem decodes_iff_mem_opcodes (ir opa opb : Byte) :
    (∃ i, decode ir opa opb = .ok i ∧ opcodeOf i = ir) ↔ ir ∈ opcodes := by
  rw [mem_opcodes_iff_mem_row]
  constructor
  · rintro ⟨i, -, rfl⟩
    exact ⟨formatOf i, opcodeOf_mem_row i⟩
  · rintro ⟨f, row⟩
    obtain ⟨i, decodes, opcode, -⟩ := decode_of_mem_row row opa opb
    exact ⟨i, decodes, opcode⟩

/-- Settles O7: the bytes by the encoder's equations, formats and decodable bytes by the rows of the opcode map. -/
theorem opcodeMapIsTheTable : Obligations.OpcodeMapIsTheTable := by
  refine ⟨fun a b => ?bytes, fun i => ?formats, ⟨rfl, opcodes_nodup⟩, decodes_iff_mem_opcodes⟩
  case bytes => and_intros <;> rfl
  case formats =>
    exact ⟨formatOf_eq_iff_mem_row i .z, formatOf_eq_ri_iff i, formatOf_eq_iff_mem_row i .rr,
      instrLength_eq_length_encode i⟩

end Sys2Proof.Machine
end

section
/-!
PROOFS. Fetch and dispatch (R62 to R65). The key fact is the inversion of the decoder: an answer has the fetched opcode
byte, and its register operands are the first candidate operand bytes, as many as its format has registers. What
`fetchInstr` answers is then said through the code bytes.
-/
namespace Sys2Proof.Machine

/-! ## The inversion of the decoder -/

/-- How many of the operand bytes of a format name a register (R46 to R49). -/
def registerCount : Format → Nat
  | .z => 0
  | .r | .ri => 1
  | .rr => 2

/-- An instruction the decoder answers has the opcode byte it was given, and its register operands are the first of
the candidate operand bytes. -/
theorem opcode_and_registers_of_decode {ir opa opb : Byte} {i : Instr} (h : decode ir opa opb = .ok i) :
    opcodeOf i = ir ∧ i.regOperands = [opa, opb].take (registerCount (formatOf i)) := by
  unfold decode at h
  split at h <;> cases h <;> exact ⟨rfl, rfl⟩

theorem opcodeOf_of_decode {ir opa opb : Byte} {i : Instr} (h : decode ir opa opb = .ok i) : opcodeOf i = ir :=
  (opcode_and_registers_of_decode h).1

theorem regOperands_of_decode {ir opa opb : Byte} {i : Instr} (h : decode ir opa opb = .ok i) :
    i.regOperands = [opa, opb].take (registerCount (formatOf i)) :=
  (opcode_and_registers_of_decode h).2

theorem mem_opcodesZ_iff_of_decode {ir opa opb : Byte} {i : Instr} (h : decode ir opa opb = .ok i) :
    ir ∈ opcodesZ ↔ formatOf i = .z := by
  rw [← opcodeOf_of_decode h]
  exact (formatOf_eq_iff_mem_row i .z).symm

theorem mem_opcodesTwoReg_iff_of_decode {ir opa opb : Byte} {i : Instr} (h : decode ir opa opb = .ok i) :
    ir ∈ opcodesTwoReg ↔ formatOf i = .rr := by
  rw [← opcodeOf_of_decode h]
  exact (formatOf_eq_iff_mem_row i .rr).symm

/-- An opcode byte outside format Z has `opa` as its first register operand (R47 to R49). -/
theorem head_regOperands_of_decode {ir opa opb : Byte} {i : Instr} (h : decode ir opa opb = .ok i)
    (notZ : ir ∉ opcodesZ) : i.regOperands.head? = some opa := by
  rw [mem_opcodesZ_iff_of_decode h] at notZ
  rw [regOperands_of_decode h]
  cases hf : formatOf i with
  | z => exact absurd hf notZ
  | r => rfl
  | ri => rfl
  | rr => rfl

/-- An opcode byte of format RR has `opa` and `opb` as its register operands (R48). -/
theorem regOperands_of_decode_twoReg {ir opa opb : Byte} {i : Instr} (h : decode ir opa opb = .ok i)
    (twoReg : ir ∈ opcodesTwoReg) : i.regOperands = [opa, opb] := by
  rw [regOperands_of_decode h, (mem_opcodesTwoReg_iff_of_decode h).mp twoReg]
  rfl

/-- The operand checks of R66 on the raw bytes make every register operand of the decoded instruction legal. -/
theorem legal_of_decode {ir opa opb : Byte} {i : Instr} (h : decode ir opa opb = .ok i)
    (firstOk : ¬(ir ∉ opcodesZ ∧ 7 < opa.toNat)) (secondOk : ¬(ir ∈ opcodesTwoReg ∧ 7 < opb.toNat)) :
    ∀ a ∈ i.regOperands, a.toNat ≤ 7 := by
  rw [mem_opcodesZ_iff_of_decode h] at firstOk
  rw [mem_opcodesTwoReg_iff_of_decode h] at secondOk
  rw [regOperands_of_decode h]
  cases hf : formatOf i with
  | z => simp [registerCount]
  | r => simpa [registerCount, hf] using firstOk
  | ri => simpa [registerCount, hf] using firstOk
  | rr => simpa [registerCount, hf] using And.intro firstOk secondOk

/-- The opcode byte 0xA4 is MOD's alone (R50). -/
theorem decode_eq_mod_iff {ir opa opb : Byte} {i : Instr} (h : decode ir opa opb = .ok i) :
    ir = 0xA4#8 ↔ i = .mod opa opb := by
  constructor
  · rintro rfl
    exact (Except.ok.inj h).symm
  · rintro rfl
    exact (opcodeOf_of_decode h).symm

theorem decode_of_not_mem {ir : Byte} (unknown : ir ∉ opcodes) (opa opb : Byte) :
    ∃ d, decode ir opa opb = .error d := by
  cases hd : decode ir opa opb with
  | error d => exact ⟨d, rfl⟩
  | ok i => exact absurd ((decodes_iff_mem_opcodes ir opa opb).mp ⟨i, hd, opcodeOf_of_decode hd⟩) unknown

/-! ## What `fetchInstr` answers, through the code bytes -/

theorem fetch_eq_codeBytes {s : State} (fits : s.pc.toNat ≤ 253) :
    fetch s = .ok (codeByte s 0, codeByte s 1, codeByte s 2) :=
  fetch_of_le fits

/-- The window fits and the opcode byte is one of the 24: the instruction its bytes decode to (R62, R64). -/
theorem fetchInstr_of_mem {s : State} (fits : s.pc.toNat ≤ 253) (known : codeByte s 0 ∈ opcodes) :
    ∃ i, decode (codeByte s 0) (codeByte s 1) (codeByte s 2) = .ok i ∧ fetchInstr s = .ok i := by
  obtain ⟨i, hd, -⟩ := (decodes_iff_mem_opcodes _ (codeByte s 1) (codeByte s 2)).mpr known
  exact ⟨i, hd, by simp only [fetchInstr, fetch_eq_codeBytes fits, hd]⟩

/-- The window fits and the opcode byte is none of the 24: UnknownOpcode (R65). -/
theorem fetchInstr_of_not_mem {s : State} (fits : s.pc.toNat ≤ 253) (unknown : codeByte s 0 ∉ opcodes) :
    fetchInstr s = .error (.unknownOpcode (codeByte s 0) s.pc) := by
  obtain ⟨d, hd⟩ := decode_of_not_mem unknown (codeByte s 1) (codeByte s 2)
  simp only [fetchInstr, fetch_eq_codeBytes fits, hd]

/-- The inversion of `fetchInstr`: an instruction comes from a window that fits, and is what its bytes decode to. -/
theorem decode_of_fetchInstr {s : State} {i : Instr} (h : fetchInstr s = .ok i) :
    s.pc.toNat ≤ 253 ∧ decode (codeByte s 0) (codeByte s 1) (codeByte s 2) = .ok i := by
  by_cases fits : s.pc.toNat ≤ 253
  · by_cases known : codeByte s 0 ∈ opcodes
    · obtain ⟨j, decodes, fetches⟩ := fetchInstr_of_mem fits known
      rw [← Except.ok.inj (fetches.symm.trans h)]
      exact ⟨fits, decodes⟩
    · cases (fetchInstr_of_not_mem fits known).symm.trans h
  · cases (fetchInstr_of_gt (Nat.lt_of_not_le fits)).symm.trans h

/-- Settles O13: the fetch answers UnknownOpcode, and a fetch error is all that the step latches. -/
theorem unknownOpcodeIsRaised : Obligations.UnknownOpcodeIsRaised := by
  intro s running noErr fits unknown
  exact step_of_fetchError running noErr (fetchInstr_of_not_mem fits unknown)

end Sys2Proof.Machine
end

section
/-!
PROOFS. The error of a step (R70, R120, R125). An effect either keeps the error latch or is an error raised on the
state it began in, and then a register operand is illegal or a MOD has a zero divisor. `firstError` names that error,
branch by branch, off the raw bytes.
-/
namespace Sys2Proof.Machine

/-! ## The error latch across an instruction -/

theorem State.err_jump (taken : Bool) (s : State) (target : Byte) (len : PcWord) :
    (if taken then s.jumpTo target else s.advance len).err = s.err := by
  cases taken <;> rfl

/-- An effect keeps the error latch, or it raises: nothing but the latch changes, and the instruction has a register
operand above 7 or is a MOD by zero (R120, R126). -/
theorem Effect.err_cases {s t : State} {i : Instr} (effect : Effect s i t) :
    t.err = s.err ∨ ∃ e, t = raise e s ∧
      ((∃ a ∈ i.regOperands, 8 ≤ a.toNat) ∨ ∃ a rb, i = .mod a (regByte rb) ∧ s.reg rb = 0#8) := by
  cases effect with
  | badFirst i a first bad => exact .inr ⟨_, rfl, .inl ⟨a, List.mem_of_head? first, bad⟩⟩
  | badSecond i ra b both bad => exact .inr ⟨_, rfl, .inl ⟨b, by simp [both], bad⟩⟩
  | modZero ra rb zero => exact .inr ⟨_, rfl, .inr ⟨_, rb, rfl, zero⟩⟩
  | jeq => exact .inl (State.err_jump _ s _ 2)
  | jne => exact .inl (State.err_jump _ s _ 2)
  | jgt => exact .inl (State.err_jump _ s _ 2)
  | jlt => exact .inl (State.err_jump _ s _ 2)
  | jge => exact .inl (State.err_jump _ s _ 2)
  | jle => exact .inl (State.err_jump _ s _ 2)
  | _ => exact .inl rfl

/-- An instruction with legal register operands, and no zero divisor if it is a MOD, keeps the error latch. -/
theorem exec_keeps_err {i : Instr} {s : State} (legal : ∀ a ∈ i.regOperands, a.toNat ≤ 7)
    (nonzero : ∀ a rb, i = .mod a (regByte rb) → s.reg rb ≠ 0#8) : ∃ t, exec i s = .next t ∧ t.err = s.err := by
  obtain ⟨t, hexec, effect⟩ := exec_effect i s
  refine ⟨t, hexec, ?_⟩
  obtain keeps | ⟨e, -, ⟨a, operand, bad⟩ | ⟨a, rb, mod, zero⟩⟩ := effect.err_cases
  · exact keeps
  · exact absurd (legal a operand) (Nat.not_le.mpr bad)
  · exact absurd zero (nonzero a rb mod)

/-! ## The step and `firstError` -/

theorem eq_regByte_of_val_eq {r : RegIdx} {a : Byte} (h : r.val = a.toNat) : a = regByte r :=
  BitVec.eq_of_toNat_eq (by rw [regByte_toNat, h])

/-- A two-register opcode byte is not of format Z: no byte stands in two rows of the opcode map. -/
theorem not_mem_opcodesZ_of_twoReg {ir : Byte} (twoReg : ir ∈ opcodesTwoReg) : ir ∉ opcodesZ := by
  intro z
  cases format_unique_of_mem_row (f := .z) (g := .rr) z twoReg

/-- The error that `firstError` names is the one the step raises. -/
theorem step_of_firstError {s : State} {e : FatalError} (running : s.running = true) (noErr : s.err = none)
    (first : firstError s = some e) : step s = .next (raise e s) := by
  unfold firstError at first
  split at first
  case isTrue above =>
    cases first
    exact step_of_fetchError running noErr (fetchInstr_of_gt above)
  case isFalse fits =>
  split at first
  case isTrue unknown =>
    cases first
    exact step_of_fetchError running noErr (fetchInstr_of_not_mem (Nat.not_lt.mp fits) unknown)
  case isFalse known =>
  obtain ⟨i, decodes, fetches⟩ := fetchInstr_of_mem (Nat.not_lt.mp fits) (not_not.mp known)
  rw [step_of_fetchInstr running noErr fetches]
  split at first
  case isTrue badFirst =>
    cases first
    rw [exec_bad_first s (head_regOperands_of_decode decodes badFirst.1) badFirst.2, opcodeOf_of_decode decodes]
  case isFalse firstOk =>
  have firstReg (twoReg : codeByte s 0 ∈ opcodesTwoReg) : ∃ ra, codeByte s 1 = regByte ra :=
    (regByte_or_bad (codeByte s 1)).resolve_right fun bad => firstOk ⟨not_mem_opcodesZ_of_twoReg twoReg, bad⟩
  split at first
  case isTrue badSecond =>
    cases first
    obtain ⟨ra, ha⟩ := firstReg badSecond.1
    have both := regOperands_of_decode_twoReg decodes badSecond.1
    rw [exec_bad_second s (ha ▸ both) badSecond.2, opcodeOf_of_decode decodes]
  case isFalse =>
  split at first
  case isTrue modZero =>
    cases first
    obtain ⟨isMod, rb, hb, zero⟩ := modZero
    obtain ⟨ra, ha⟩ := firstReg (isMod ▸ by decide)
    rw [(decode_eq_mod_iff decodes).mp isMod, ha, eq_regByte_of_val_eq hb]
    exact exec_mod_zero s ra rb zero
  case isFalse => cases first

/-- Where `firstError` names none, the step completes without one. -/
theorem step_of_firstError_none {s : State} (running : s.running = true) (noErr : s.err = none)
    (first : firstError s = none) : ∃ t, step s = .next t ∧ t.err = none := by
  unfold firstError at first
  split_ifs at first with fits known firstOk secondOk notModZero
  obtain ⟨i, decodes, fetches⟩ := fetchInstr_of_mem (Nat.not_lt.mp fits) known
  have nonzero (a : Byte) (rb : RegIdx) (mod : i = .mod a (regByte rb)) : s.reg rb ≠ 0#8 := by
    subst mod
    have isMod : codeByte s 0 = 0xA4#8 := (opcodeOf_of_decode decodes).symm
    have operands := (decode_eq_mod_iff decodes).mp isMod
    injection operands with _ second
    exact fun zero => notModZero ⟨isMod, rb, by rw [← second, regByte_toNat], zero⟩
  rw [step_of_fetchInstr running noErr fetches, ← noErr]
  exact exec_keeps_err (legal_of_decode decodes firstOk secondOk) nonzero

/-- Settles O15: whether `firstError` names an error or none, the step answers accordingly. -/
theorem stepRaisesTheFirstErrorInOrder : Obligations.StepRaisesTheFirstErrorInOrder := by
  intro s running noErr
  cases first : firstError s with
  | none =>
    obtain ⟨t, steps, healthy⟩ := step_of_firstError_none running noErr first
    exact ⟨t, steps, healthy, fun raises => absurd rfl raises⟩
  | some e => exact ⟨raise e s, step_of_firstError running noErr first, rfl, fun _ => rfl⟩

end Sys2Proof.Machine
end

section
/-!
PROOFS. The end of a run (R71). The last step of a run is the only one looked at: it raised, and then the state before
it is the state after it without the error, or it kept the latch, and then it must have cleared `running`, which HLT
alone does.
-/
namespace Sys2Proof.Machine

/-- A step leaves no error latched, or it latches one and changes nothing else (R120). -/
theorem step_err_cases {s t : State} (h : step s = .next t) : t.err = none ∨ ∃ e, t = raise e s := by
  obtain ⟨-, noErr, ⟨e, -, raised⟩ | ⟨i, -, hexec⟩⟩ := step_cases h
  · exact .inr ⟨e, raised⟩
  · obtain keeps | ⟨e, raised, -⟩ := (effect_of_exec hexec).err_cases
    · exact .inl (keeps.trans noErr)
    · exact .inr ⟨e, raised⟩

/-- Taking the raised error off again gives the state it was raised on. -/
theorem raise_clearErr {s : State} (noErr : s.err = none) (e : FatalError) :
    { raise e s with err := none } = s := by
  rw [← noErr]
  rfl

/-- A step that stops the core executed a HLT, whose opcode byte lies at the pc, and advanced by 1 (R75). -/
theorem hlt_of_step_stopped {s t : State} (h : step s = .next t) (stopped : t.running = false) :
    codeByte s 0 = 0x01#8 ∧ t.pc.toNat = s.pc.toNat + 1 := by
  obtain ⟨running, -, ⟨e, -, rfl⟩ | ⟨i, fetches, hexec⟩⟩ := step_cases h
  · rw [raise_running, running] at stopped
    cases stopped
  · obtain rfl : i = .hlt := by
      by_contra notHlt
      rw [exec_running hexec, if_neg notHlt, running] at stopped
      cases stopped
    obtain ⟨fits, decodes⟩ := decode_of_fetchInstr fetches
    rw [exec_hlt, Host.Outcome.next.injEq] at hexec
    refine ⟨(opcodeOf_of_decode decodes).symm, ?_⟩
    rw [← hexec, State.advance_pc, State.setRunning_pc, BitVec.toNat_add_of_lt (by simp; omega)]
    rfl

/-- A run ends by a step: the state that `run` sets running still steps. -/
theorem RunEnds.last_step {s t : State} (ends : RunEnds s t) : ∃ v, step v = .next t := by
  obtain ⟨u, starts, steps, inactive⟩ := ends
  obtain ⟨-, noErr, rfl⟩ := hostRun_eq_next starts
  cases steps with
  | refl =>
    have active := (coreActive_iff (s.setRunning true)).mpr ⟨rfl, noErr⟩
    rw [active] at inactive
    cases inactive
  | tail _ last => exact ⟨_, last⟩

/-- Settles O55: by the error latch after the last step of the run. -/
theorem everyRunEndsByHltOrByAnError : Obligations.EveryRunEndsByHltOrByAnError := by
  intro s t ends
  obtain ⟨v, last⟩ := ends.last_step
  obtain ⟨-, -, -, inactive⟩ := ends
  obtain healthy | ⟨e, rfl⟩ := step_err_cases last
  · have stopped : t.running = false := by
      by_contra running
      rw [(coreActive_iff t).mpr ⟨Bool.eq_true_of_not_eq_false running, healthy⟩] at inactive
      cases inactive
    exact .inl ⟨⟨stopped, healthy⟩, v, last, hlt_of_step_stopped last stopped⟩
  · obtain ⟨running, noErr, -⟩ := step_cases last
    refine .inr ⟨Option.some_ne_none e, running, ?_⟩
    rw [raise_clearErr noErr, last]

end Sys2Proof.Machine
end

section
/-!
PROOFS. HLT, LDI and PRN (R75 to R77). What recurs with every instruction of their forms is said once: a first register
operand above 7 raises BadRegisterIndex, and a register write with an advance of the pc changes nothing else.
-/
namespace Sys2Proof.Machine

/-! ## The shared forms -/

theorem raises_of_bad_first {i : Instr} {a : Byte} (s : State) (first : i.regOperands.head? = some a)
    (bad : 7 < a.toNat) : Raises i s (.badRegisterIndex (opcodeOf i) s.pc a) :=
  exec_bad_first s first bad

/-- An instruction whose bytes are the opcode and a register operand traps an illegal operand (R47, R66). -/
theorem takesOneRegister_of_encode {mk : Byte → Instr} {op : Byte} (bytes : ∀ a, encode (mk a) = [op, a])
    (first : ∀ a, (mk a).regOperands.head? = some a) : TakesOneRegister mk op := by
  intro s a
  refine ⟨bytes a, fun bad => ?_⟩
  have opcode : opcodeOf (mk a) = op := List.head_eq_of_cons_eq (bytes a)
  rw [← opcode]
  exact raises_of_bad_first s (first a) bad

theorem storesInReg_of_exec {i : Instr} {s : State} {d : RegIdx} {v : Byte} {len : PcWord}
    (h : exec i s = .next ((s.setReg d v).advance len)) : StoresInReg i s d v.toNat len := by
  have stored : ((s.setReg d v).advance len).reg d = v := State.reg_setReg_same s d v
  have others : sameRegsBut [d] s ((s.setReg d v).advance len) := fun r hr =>
    State.reg_setReg_ne s d r v (List.ne_of_not_mem_cons hr)
  exact ⟨_, h, congrArg BitVec.toNat stored, rfl, others, rfl, fun _ => rfl, ⟨rfl, rfl⟩, rfl⟩

/-! ## LDI (R76) -/

/-- Settles O18: the trap of the register operand, and the register write of `exec_ldi`. -/
theorem ldiLoadsTheImmediate : Obligations.LdiLoadsTheImmediate := by
  refine ⟨fun s a v => ⟨rfl, ?illegal⟩, fun s ra v => ?legal⟩
  case illegal => exact raises_of_bad_first (i := .ldi a v) s rfl
  case legal => exact storesInReg_of_exec (exec_ldi s ra v)

/-! ## PRN (R77) -/

/-- Settles O19: the trap of the register operand, and the fields of the state of `exec_prn`. -/
theorem prnHandsTheRegisterToTheSink : Obligations.PrnHandsTheRegisterToTheSink := by
  refine ⟨takesOneRegister_of_encode (fun _ => rfl) (fun _ => rfl), fun s ra => ?_⟩
  exact ⟨_, exec_prn s ra, rfl, rfl, fun _ _ => rfl, rfl, fun _ => rfl, rfl, rfl⟩

/-! ## HLT (R75) -/

theorem coreActive_of_stopped {s : State} (stopped : s.running = false) : coreActive s = false := by
  rw [coreActive, stopped, Bool.false_and]

/-- `run` is accepted on a stopped core with no error, and sets the running flag alone (R60, D10). -/
theorem hostRun_of_stopped {s : State} (stopped : s.running = false) (noErr : s.err = none) :
    hostRun s = .next (s.setRunning true) := by
  simp [hostRun, noErr, stopped]

/-- An instruction that stops a running core is HLT (R16). -/
theorem hlt_of_exec_stopped {i : Instr} {s t : State} (h : exec i s = .next t) (running : s.running = true)
    (stopped : t.running = false) : i = .hlt := by
  by_contra notHlt
  rw [exec_running h, if_neg notHlt, running] at stopped
  cases stopped

/-- The opcode byte 0x01 is HLT whatever the two bytes after it are (R46, R50). -/
theorem fetchInstr_hlt {s : State} (fits : s.pc.toNat ≤ 253) (opcode : codeByte s 0 = 0x01#8) :
    fetchInstr s = .ok .hlt := by
  simp only [fetchInstr, fetch_eq_codeBytes fits, opcode, decode]

/-- At pc 254 to 256 the first address of the window above 255 is 256 (R63, D2). -/
theorem fetchInstr_of_top {s : State} (above : 254 ≤ s.pc.toNat) (legal : s.pc.toNat ≤ 256) :
    fetchInstr s = .error (.outOfBounds 256) := by
  rw [fetchInstr_of_gt above, Nat.max_eq_right legal]

/-- HLT's effect in every state, and what the host's `run` makes of the state after it. -/
theorem hlt_completes (s : State) : Completes .hlt s fun t =>
    t.running = false ∧ t.pc = s.pc + 1 ∧ t.err = s.err ∧ sameRegsBut [] s t ∧ sameFlags s t ∧ sameMemory s t ∧
      sameOut s t ∧ coreActive t = false ∧ (s.err = none → hostRun t = .next { t with running := true }) :=
  ⟨_, exec_hlt s, rfl, rfl, rfl, fun _ _ => rfl, rfl, fun _ => rfl, rfl, coreActive_of_stopped rfl,
    hostRun_of_stopped (s := (s.setRunning false).advance 1) rfl⟩

/-- Settles O17: HLT's effect, the frame of `running`, and the step by what the fetch answers on the two sides of
pc 253. -/
theorem hltStopsAndAdvancesByOne : Obligations.HltStopsAndAdvancesByOne := by
  refine ⟨rfl, hlt_completes, fun _ _ _ => hlt_of_exec_stopped, fun s running noErr opcode => ⟨?fits, ?top⟩⟩
  case fits =>
    intro fits
    exact step_of_fetchInstr running noErr (fetchInstr_hlt fits opcode)
  case top =>
    rintro ⟨above, legal⟩
    exact step_of_fetchError running noErr (fetchInstr_of_top above legal)

end Sys2Proof.Machine
end

section
/-!
PROOFS. PUSH, POP, CALL and RET (R80 to R84). The two halves of the stack discipline are said once: the stack pointer's
arithmetic as numbers, that it touches no register but 7, and what memory reads after a byte is pushed. The operand 7
is then one question about a register read after the stack pointer moved (D7).
-/
namespace Sys2Proof.Machine

/-! ## The stack pointer (R80, D3) -/

theorem spDec_sp_toNat (s : State) : (spDec s).sp.toNat = (s.sp.toNat + 255) % 256 := by
  rw [spDec_sp, BitVec.toNat_sub, Nat.add_comm]
  rfl

theorem spInc_sp_toNat (s : State) : (spInc s).sp.toNat = (s.sp.toNat + 1) % 256 := by
  rw [spInc_sp, BitVec.toNat_add]
  rfl

theorem spDec_reg_ne (s : State) {q : RegIdx} (h : q ≠ 7) : (spDec s).reg q = s.reg q :=
  State.reg_setReg_ne s 7 q _ h

theorem spInc_reg_ne (s : State) {q : RegIdx} (h : q ≠ 7) : (spInc s).reg q = s.reg q :=
  State.reg_setReg_ne s 7 q _ h

theorem spDec_sameRegsBut (s : State) : sameRegsBut [7] s (spDec s) :=
  fun _ other => spDec_reg_ne s (List.ne_of_not_mem_cons other)

theorem spInc_sameRegsBut (s : State) : sameRegsBut [7] s (spInc s) :=
  fun _ other => spInc_reg_ne s (List.ne_of_not_mem_cons other)

/-- A register read after the decrement: register 7 gives the new `sp`, the others what they held (D7). -/
theorem spDec_reg_eq_ite (s : State) (q : RegIdx) : (spDec s).reg q = if q = 7 then (spDec s).sp else s.reg q := by
  split
  case isTrue h => rw [h, State.sp_eq_reg]
  case isFalse h => exact spDec_reg_ne s h

/-! ## Memory after a push (R80) -/

theorem read_pushed (s : State) (v : Byte) :
    Memory.read (Memory.write s.mem (s.sp - 1#8).toNat v) (spDec s).sp.toNat = v := by
  rw [spDec_sp, Memory.read_write_same]

theorem read_pushed_ne (s : State) (v : Byte) {a : Nat} (other : a ≠ (spDec s).sp.toNat) :
    Memory.read (Memory.write s.mem (s.sp - 1#8).toNat v) a = Memory.read s.mem a := by
  rw [spDec_sp] at other
  exact Memory.read_write_ne s.mem v other

/-- The return address as a number, at every pc (R83, log 3). -/
theorem returnByte_toNat_mod (s : State) : (returnByte s).toNat = (s.pc.toNat + 2) % 256 := by
  simp only [returnByte, BitVec.truncate_eq_setWidth, BitVec.toNat_setWidth, BitVec.toNat_add, BitVec.toNat_ofNat]
  omega

/-! ## POP's load before the increment (R82, D7) -/

/-- A load into another register leaves `sp` to be incremented. -/
theorem spInc_setReg_sp_toNat_of_ne (s : State) {d : RegIdx} (v : Byte) (h : d ≠ 7) :
    (spInc (s.setReg d v)).sp.toNat = (s.sp.toNat + 1) % 256 := by
  have kept : (s.setReg d v).sp = s.sp := State.reg_setReg_ne s d 7 v h.symm
  rw [spInc_sp_toNat, kept]

/-- A load into register 7 is what the increment reads. -/
theorem spInc_setReg_seven_sp_toNat (s : State) (v : Byte) :
    (spInc (s.setReg 7 v)).sp.toNat = (v.toNat + 1) % 256 := by
  have loaded : (s.setReg 7 v).sp = v := State.sp_setSp s v
  rw [spInc_sp_toNat, loaded]

theorem spInc_setReg_sameRegsBut (s : State) (d : RegIdx) (v : Byte) :
    sameRegsBut [d, 7] s (spInc (s.setReg d v)) := by
  intro q other
  obtain ⟨notDest, notSp⟩ := not_or.mp fun h => other (List.mem_pair.mpr h)
  rw [spInc_reg_ne _ notSp, State.reg_setReg_ne s d q v notDest]

/-! ## The four instructions -/

/-- Settles O20: the stored byte is the register as the decrement left it. -/
theorem pushStoresBelowTheStackPointer : Obligations.PushStoresBelowTheStackPointer := by
  refine ⟨takesOneRegister_of_encode (fun _ => rfl) (fun _ => rfl), fun s ra => ⟨_, exec_push s ra, ?_⟩⟩
  have stored := (read_pushed s ((spDec s).reg ra)).trans (spDec_reg_eq_ite s ra)
  exact ⟨spDec_sp_toNat s, rfl, stored, fun _ => read_pushed_ne s _, spDec_sameRegsBut s, rfl, rfl, ⟨rfl, rfl⟩, rfl⟩

/-- Settles O21: the increment reads register 7 after the load, so the operand 7 is a case of its own. -/
theorem popLoadsFromTheStackPointer : Obligations.PopLoadsFromTheStackPointer := by
  refine ⟨takesOneRegister_of_encode (fun _ => rfl) (fun _ => rfl), fun s ra => ⟨_, exec_pop s ra, ?other, ?seven,
    spInc_setReg_sameRegsBut s ra _, fun _ => rfl, rfl, rfl, ⟨rfl, rfl⟩, rfl⟩⟩
  case other =>
    intro notSp
    exact ⟨(spInc_reg_ne _ notSp).trans (State.reg_setReg_same s ra _), spInc_setReg_sp_toNat_of_ne s _ notSp⟩
  case seven =>
    rintro rfl
    exact spInc_setReg_seven_sp_toNat s _

/-- Settles O22: the stored byte is `pc + 2`, and the target is the register as the decrement left it. -/
theorem callPushesTheReturnAddressAndJumps : Obligations.CallPushesTheReturnAddressAndJumps := by
  refine ⟨takesOneRegister_of_encode (fun _ => rfl) (fun _ => rfl), fun s ra => ⟨_, exec_call s ra, ?_⟩⟩
  have stored := (congrArg BitVec.toNat (read_pushed s (returnByte s))).trans (returnByte_toNat_mod s)
  have target := congrArg (BitVec.zeroExtend 9) (spDec_reg_eq_ite s ra)
  exact ⟨spDec_sp_toNat s, rfl, stored, fun _ => read_pushed_ne s _, spDec_sameRegsBut s, target, rfl, ⟨rfl, rfl⟩, rfl⟩

/-- Settles O23: the fields of the state of `exec_ret`, with `sp` incremented. -/
theorem retPopsTheProgramCounter : Obligations.RetPopsTheProgramCounter := by
  refine ⟨rfl, fun s => ⟨_, exec_ret s, ?_⟩⟩
  exact ⟨rfl, spInc_sp_toNat s, spInc_sameRegsBut s, fun _ => rfl, rfl, ⟨rfl, rfl⟩, rfl⟩

end Sys2Proof.Machine
end

section
/-!
PROOFS. The ALU (R90 to R101). The trap of two register operands is said once; each value is then the register write of
the instruction's `exec_` lemma read as a number. That only CMP touches the flags is the commutation of `setFl` with the
effect of every other ALU instruction, from which its frame follows too.
-/
namespace Sys2Proof.Machine

/-! ## The shared form -/

theorem raises_of_bad_second {i : Instr} {a b : Byte} (s : State) (both : i.regOperands = [a, b]) (legal : a.toNat ≤ 7)
    (bad : 7 < b.toNat) : Raises i s (.badRegisterIndex (opcodeOf i) s.pc b) := by
  obtain ⟨ra, rfl⟩ := (regByte_or_bad a).resolve_right (Nat.not_le.mpr (Nat.lt_succ_of_le legal))
  exact exec_bad_second s both bad

/-- An instruction whose bytes are the opcode and two register operands traps an illegal operand, the first before the
second (R48, R66). -/
theorem takesTwoRegisters_of_encode {mk : Byte → Byte → Instr} {op : Byte}
    (bytes : ∀ a b, encode (mk a b) = [op, a, b]) (both : ∀ a b, (mk a b).regOperands = [a, b]) :
    TakesTwoRegisters mk op := by
  intro s a b
  have opcode : opcodeOf (mk a b) = op := List.head_eq_of_cons_eq (bytes a b)
  rw [← opcode]
  refine ⟨opcode ▸ bytes a b, ?first, ?second⟩
  case first => exact raises_of_bad_first s (by rw [both, List.head?_cons])
  case second => exact raises_of_bad_second s (both a b)

/-! ## ADD, MUL and MOD (R91 to R93) -/

/-- Settles O24: the register write of `exec_add`, its value by `aluAdd_toNat`. -/
theorem addStoresTheSumModulo256 : Obligations.AddStoresTheSumModulo256 := by
  refine ⟨takesTwoRegisters_of_encode (fun _ _ => rfl) (fun _ _ => rfl), fun s ra rb => ?_⟩
  rw [← aluAdd_toNat]
  exact storesInReg_of_exec (exec_add s ra rb)

/-- Settles O25: the register write of `exec_mul`, its value by `aluMul_toNat`. -/
theorem mulStoresTheProductModulo256 : Obligations.MulStoresTheProductModulo256 := by
  refine ⟨takesTwoRegisters_of_encode (fun _ _ => rfl) (fun _ _ => rfl), fun s ra rb => ?_⟩
  rw [← aluMul_toNat]
  exact storesInReg_of_exec (exec_mul s ra rb)

/-- Settles O26: the divisor decides between the register write and the error. -/
theorem modStoresTheRemainderOrRaises : Obligations.ModStoresTheRemainderOrRaises := by
  refine ⟨takesTwoRegisters_of_encode (fun _ _ => rfl) (fun _ _ => rfl), fun s ra rb => ⟨?nonzero, ?zero⟩⟩
  case nonzero =>
    intro nonzero
    rw [← aluMod_toNat]
    exact storesInReg_of_exec (exec_mod s ra rb nonzero)
  case zero => exact exec_mod_zero s ra rb

/-! ## AND, OR, XOR and NOT (R94 to R97) -/

/-- Settles O27: the stored bytes are the bitwise operations, each fixed by its bits. -/
theorem andOrXorWorkBitByBit : Obligations.AndOrXorWorkBitByBit := by
  refine ⟨takesTwoRegisters_of_encode (fun _ _ => rfl) (fun _ _ => rfl),
    takesTwoRegisters_of_encode (fun _ _ => rfl) (fun _ _ => rfl),
    takesTwoRegisters_of_encode (fun _ _ => rfl) (fun _ _ => rfl), fun s ra rb => ?_⟩
  exact ⟨s.reg ra &&& s.reg rb, s.reg ra ||| s.reg rb, s.reg ra ^^^ s.reg rb,
    fun _ => BitVec.getLsbD_and, fun _ => BitVec.getLsbD_or, fun _ => BitVec.getLsbD_xor,
    storesInReg_of_exec (exec_and s ra rb), storesInReg_of_exec (exec_or s ra rb),
    storesInReg_of_exec (exec_xor s ra rb)⟩

/-- Settles O28: the bitwise complement of a byte is 255 minus its value. -/
theorem notStoresTheComplement : Obligations.NotStoresTheComplement := by
  refine ⟨takesOneRegister_of_encode (fun _ => rfl) (fun _ => rfl), fun s ra => ?_⟩
  have complement : (~~~ s.reg ra).toNat = 255 - (s.reg ra).toNat := BitVec.toNat_not
  rw [← complement]
  exact storesInReg_of_exec (exec_not s ra)

/-! ## SHL and SHR (R98, R99) -/

/-- Settles O29: the register writes of `exec_shl` and `exec_shr`, the values by `aluShl_toNat` and `aluShr_toNat`. -/
theorem shiftsStoreTheLogicalShift : Obligations.ShiftsStoreTheLogicalShift := by
  refine ⟨takesTwoRegisters_of_encode (fun _ _ => rfl) (fun _ _ => rfl),
    takesTwoRegisters_of_encode (fun _ _ => rfl) (fun _ _ => rfl), fun s ra rb => ?_⟩
  rw [← aluShl_toNat, ← aluShr_toNat]
  exact ⟨storesInReg_of_exec (exec_shl s ra rb), storesInReg_of_exec (exec_shr s ra rb)⟩

/-! ## CMP and the flags (R100, R101) -/

/-- Settles O30: the fields of the state of `exec_cmp`, the flags by `compareFlags_eq`. -/
theorem cmpLeavesExactlyTheMatchingFlag : Obligations.CmpLeavesExactlyTheMatchingFlag := by
  refine ⟨takesTwoRegisters_of_encode (fun _ _ => rfl) (fun _ _ => rfl), fun s ra rb => ⟨_, exec_cmp s ra rb, ?_⟩⟩
  exact ⟨compareFlags_eq (s.reg ra) (s.reg rb), rfl, fun _ _ => rfl, fun _ => rfl, ⟨rfl, rfl⟩, rfl⟩

@[simp] theorem State.setFl_self (s : State) : s.setFl s.fl = s := rfl

/-- The effect of an ALU instruction other than CMP is the same under another value of `fl`, which it hands on. -/
theorem Effect.exec_setFl {i : Instr} {s t : State} (effect : Effect s i t) (plain : isPlainAlu i = true) (f : Byte) :
    exec i (s.setFl f) = .next (t.setFl f) := by
  cases effect with
  | badFirst i a first bad => exact exec_bad_first (s.setFl f) first bad
  | badSecond i ra b both bad => exact exec_bad_second (s.setFl f) both bad
  | modZero ra rb zero => exact exec_mod_zero (s.setFl f) ra rb zero
  | add ra rb => exact exec_add (s.setFl f) ra rb
  | mul ra rb => exact exec_mul (s.setFl f) ra rb
  | mod ra rb nonzero => exact exec_mod (s.setFl f) ra rb nonzero
  | and ra rb => exact exec_and (s.setFl f) ra rb
  | or ra rb => exact exec_or (s.setFl f) ra rb
  | xor ra rb => exact exec_xor (s.setFl f) ra rb
  | not ra => exact exec_not (s.setFl f) ra
  | shl ra rb => exact exec_shl (s.setFl f) ra rb
  | shr ra rb => exact exec_shr (s.setFl f) ra rb
  | _ => cases plain

/-- The frame of `fl`: the case of `Effect.exec_setFl` in which the flags are set to the value they have. -/
theorem exec_fl_of_plainAlu {i : Instr} {s t : State} (h : exec i s = .next t) (plain : isPlainAlu i = true) :
    t.fl = s.fl := by
  have same := (effect_of_exec h).exec_setFl plain s.fl
  rw [State.setFl_self, h, Host.Outcome.next.injEq] at same
  rw [same, State.setFl_fl]

/-- Whether it raises or compares, CMP writes no register. -/
theorem Effect.reg_cmp {a b : Byte} {s t : State} (effect : Effect s (.cmp a b) t) (r : RegIdx) :
    t.reg r = s.reg r := by
  cases effect with
  | badFirst => rfl
  | badSecond => rfl
  | cmp => rfl

/-- Settles O41: the flags by the commutation of `setFl`, CMP's registers by its effects. -/
theorem onlyCmpOfTheAluTouchesTheFlags : Obligations.OnlyCmpOfTheAluTouchesTheFlags := by
  refine ⟨fun i s t plain h => ?flags, fun a b s t h => ?registers⟩
  case flags => exact ⟨exec_fl_of_plainAlu h plain, (effect_of_exec h).exec_setFl plain⟩
  case registers => exact (effect_of_exec h).reg_cmp

end Sys2Proof.Machine
end

section
/-!
PROOFS. JMP and the conditional jumps (R105 to R113). A jump is taken or advances, and either way sets the pc alone: said
once, it leaves for each conditional jump the question of when its condition holds, in terms of the flag bits, of the
comparison that CMP left in them, and of cleared flags.
-/
namespace Sys2Proof.Machine

/-! ## The shared form (R105) -/

theorem onlySetsPc_of_exec_jumpTo {i : Instr} {s : State} {target : Byte} (h : exec i s = .next (s.jumpTo target)) :
    OnlySetsPc i s (target.zeroExtend 9) :=
  ⟨_, h, rfl, fun _ _ => rfl, rfl, fun _ => rfl, ⟨rfl, rfl⟩, rfl⟩

theorem onlySetsPc_of_exec_advance {i : Instr} {s : State} {len : PcWord} (h : exec i s = .next (s.advance len)) :
    OnlySetsPc i s (s.pc + len) :=
  ⟨_, h, rfl, fun _ _ => rfl, rfl, fun _ => rfl, ⟨rfl, rfl⟩, rfl⟩

section
variable {i : Instr} {s : State} {target : Byte} {len : PcWord} {taken : Bool}
  (h : exec i s = .next (if taken then s.jumpTo target else s.advance len))
include h

theorem onlySetsPc_of_taken (isTaken : taken = true) : OnlySetsPc i s (target.zeroExtend 9) :=
  onlySetsPc_of_exec_jumpTo (by rw [h, if_pos isTaken])

theorem onlySetsPc_of_not_taken (notTaken : taken = false) : OnlySetsPc i s (s.pc + len) :=
  onlySetsPc_of_exec_advance (by rw [h, if_neg (Bool.eq_false_iff.mp notTaken)])

/-- A conditional jump whose condition says `P` goes to its target when `P` holds, else advances. -/
theorem onlySetsPc_of_taken_iff {P : Prop} [Decidable P] (condition : taken = true ↔ P) :
    OnlySetsPc i s (if P then target.zeroExtend 9 else s.pc + len) := by
  split
  case isTrue holds => exact onlySetsPc_of_taken h (condition.mpr holds)
  case isFalse fails => exact onlySetsPc_of_not_taken h (Bool.eq_false_iff.mpr (mt condition.mp fails))

end

/-! ## The conditions on the flag bits (R107 to R112) -/

theorem condEq_iff (fl : Byte) : condEq fl = true ↔ flagE fl = true := Iff.rfl

theorem condNe_iff (fl : Byte) : condNe fl = true ↔ flagE fl = false := by
  rw [condNe, Bool.not_eq_true']

theorem condGt_iff (fl : Byte) : condGt fl = true ↔ flagG fl = true := Iff.rfl

theorem condLt_iff (fl : Byte) : condLt fl = true ↔ flagL fl = true := Iff.rfl

theorem condGe_iff (fl : Byte) : condGe fl = true ↔ flagE fl = true ∨ flagG fl = true := by
  rw [condGe, Bool.or_eq_true]

theorem condLe_iff (fl : Byte) : condLe fl = true ↔ flagE fl = true ∨ flagL fl = true := by
  rw [condLe, Bool.or_eq_true]

/-! ## The seven jumps (R106 to R112) -/

/-- Settles O31: JMP is the shared form with no condition. -/
theorem jmpAssignsTheRegister : Obligations.JmpAssignsTheRegister :=
  ⟨takesOneRegister_of_encode (fun _ => rfl) (fun _ => rfl), fun s ra => onlySetsPc_of_exec_jumpTo (exec_jmp s ra)⟩

/-- Settles O32: the two conditions are E and its negation; neither looks at G or L. -/
theorem jeqAndJneTestTheEqualBit : Obligations.JeqAndJneTestTheEqualBit := by
  refine ⟨takesOneRegister_of_encode (fun _ => rfl) (fun _ => rfl),
    takesOneRegister_of_encode (fun _ => rfl) (fun _ => rfl), fun s ra => ⟨?jeq, ?jne⟩⟩
  case jeq => exact onlySetsPc_of_taken_iff (exec_jeq s ra) (condEq_iff s.fl)
  case jne => exact onlySetsPc_of_taken_iff (exec_jne s ra) (condNe_iff s.fl)

/-- Settles O33: the two conditions are G and L. -/
theorem jgtAndJltTestTheirBit : Obligations.JgtAndJltTestTheirBit := by
  refine ⟨takesOneRegister_of_encode (fun _ => rfl) (fun _ => rfl),
    takesOneRegister_of_encode (fun _ => rfl) (fun _ => rfl), fun s ra => ⟨?jgt, ?jlt⟩⟩
  case jgt => exact onlySetsPc_of_taken_iff (exec_jgt s ra) (condGt_iff s.fl)
  case jlt => exact onlySetsPc_of_taken_iff (exec_jlt s ra) (condLt_iff s.fl)

/-- Settles O34: the two conditions are disjunctions of E with G and with L. -/
theorem jgeAndJleTestEitherOfTwoBits : Obligations.JgeAndJleTestEitherOfTwoBits := by
  refine ⟨takesOneRegister_of_encode (fun _ => rfl) (fun _ => rfl),
    takesOneRegister_of_encode (fun _ => rfl) (fun _ => rfl), fun s ra => ⟨?jge, ?jle⟩⟩
  case jge => exact onlySetsPc_of_taken_iff (exec_jge s ra) (condGe_iff s.fl)
  case jle => exact onlySetsPc_of_taken_iff (exec_jle s ra) (condLe_iff s.fl)

/-! ## The conditions after a comparison (R100, R113) -/

/-- The three outcomes of an unsigned comparison, each with the one flag it leaves (R100, D5, D13). -/
theorem compareFlags_cases (x y : Byte) :
    (x.toNat = y.toNat ∧ compareFlags x y = 0x01#8) ∨ (x.toNat > y.toNat ∧ compareFlags x y = 0x02#8) ∨
      (x.toNat < y.toNat ∧ compareFlags x y = 0x04#8) := by
  rw [compareFlags_eq]
  obtain lt | eq | gt := Nat.lt_trichotomy x.toNat y.toNat
  · exact .inr (.inr ⟨lt, by rw [if_neg lt.ne, if_neg lt.asymm]⟩)
  · exact .inl ⟨eq, if_pos eq⟩
  · exact .inr (.inl ⟨gt, by rw [if_neg gt.ne', if_pos gt]⟩)

theorem flagE_compareFlags (x y : Byte) : flagE (compareFlags x y) = true ↔ x.toNat = y.toNat := by
  obtain ⟨eq, flags⟩ | ⟨gt, flags⟩ | ⟨lt, flags⟩ := compareFlags_cases x y <;> rw [flags]
  · exact iff_of_true rfl eq
  · exact iff_of_false (by decide) gt.ne'
  · exact iff_of_false (by decide) lt.ne

theorem flagG_compareFlags (x y : Byte) : flagG (compareFlags x y) = true ↔ x.toNat > y.toNat := by
  obtain ⟨eq, flags⟩ | ⟨gt, flags⟩ | ⟨lt, flags⟩ := compareFlags_cases x y <;> rw [flags]
  · exact iff_of_false (by decide) eq.not_gt
  · exact iff_of_true rfl gt
  · exact iff_of_false (by decide) lt.asymm

theorem flagL_compareFlags (x y : Byte) : flagL (compareFlags x y) = true ↔ x.toNat < y.toNat := by
  obtain ⟨eq, flags⟩ | ⟨gt, flags⟩ | ⟨lt, flags⟩ := compareFlags_cases x y <;> rw [flags]
  · exact iff_of_false (by decide) eq.not_lt
  · exact iff_of_false (by decide) gt.asymm
  · exact iff_of_true rfl lt

theorem condEq_compareFlags (x y : Byte) : condEq (compareFlags x y) = true ↔ x.toNat = y.toNat :=
  flagE_compareFlags x y

theorem condNe_compareFlags (x y : Byte) : condNe (compareFlags x y) = true ↔ x.toNat ≠ y.toNat := by
  rw [condNe_iff, Bool.eq_false_iff, Ne, flagE_compareFlags]

theorem condGt_compareFlags (x y : Byte) : condGt (compareFlags x y) = true ↔ x.toNat > y.toNat :=
  flagG_compareFlags x y

theorem condLt_compareFlags (x y : Byte) : condLt (compareFlags x y) = true ↔ x.toNat < y.toNat :=
  flagL_compareFlags x y

theorem condGe_compareFlags (x y : Byte) : condGe (compareFlags x y) = true ↔ x.toNat ≥ y.toNat := by
  rw [condGe_iff, flagE_compareFlags, flagG_compareFlags, eq_comm]
  exact le_iff_eq_or_lt.symm

theorem condLe_compareFlags (x y : Byte) : condLe (compareFlags x y) = true ↔ x.toNat ≤ y.toNat := by
  rw [condLe_iff, flagE_compareFlags, flagL_compareFlags]
  exact le_iff_eq_or_lt.symm

/-! ## The jumps after a comparison and with cleared flags (R113) -/

/-- Settles O35: after CMP the flags are those of the comparison, which each condition reads back; with cleared flags
each condition has one value. -/
theorem conditionalJumpsFollowTheComparison : Obligations.ConditionalJumpsFollowTheComparison := by
  refine ⟨fun s ra rb rc => ⟨_, exec_cmp s ra rb, ?compared⟩, fun s rc cleared => ?cleared⟩
  case compared =>
    exact ⟨onlySetsPc_of_exec_jumpTo (exec_jmp _ rc),
      onlySetsPc_of_taken_iff (exec_jeq _ rc) (condEq_compareFlags _ _),
      onlySetsPc_of_taken_iff (exec_jne _ rc) (condNe_compareFlags _ _),
      onlySetsPc_of_taken_iff (exec_jgt _ rc) (condGt_compareFlags _ _),
      onlySetsPc_of_taken_iff (exec_jlt _ rc) (condLt_compareFlags _ _),
      onlySetsPc_of_taken_iff (exec_jge _ rc) (condGe_compareFlags _ _),
      onlySetsPc_of_taken_iff (exec_jle _ rc) (condLe_compareFlags _ _)⟩
  case cleared =>
    exact ⟨onlySetsPc_of_exec_jumpTo (exec_jmp s rc),
      onlySetsPc_of_taken (exec_jne s rc) (congrArg condNe cleared),
      onlySetsPc_of_not_taken (exec_jeq s rc) (congrArg condEq cleared),
      onlySetsPc_of_not_taken (exec_jgt s rc) (congrArg condGt cleared),
      onlySetsPc_of_not_taken (exec_jlt s rc) (congrArg condLt cleared),
      onlySetsPc_of_not_taken (exec_jge s rc) (congrArg condGe cleared),
      onlySetsPc_of_not_taken (exec_jle s rc) (congrArg condLe cleared)⟩

end Sys2Proof.Machine
end

section
/-!
PROOFS. Decode and encode (R45 to R52). Three bytes begin with an encoding when the opcode byte is the first of them and
the other two begin with the operand bytes; both directions are then about the operand bytes alone.
-/
namespace Sys2Proof.Machine

/-! ## Decode and encode agree (R33, R46 to R51) -/

theorem window_begins_with_encode_iff (i : Instr) (ir opa opb : Byte) :
    encode i <+: [ir, opa, opb] ↔ opcodeOf i = ir ∧ operandBytes i <+: [opa, opb] := by
  simp [encode]

/-- The operand bytes of a decoded instruction are the first of the candidate operand bytes. -/
theorem window_begins_with_operandBytes {ir opa opb : Byte} {i : Instr} (h : decode ir opa opb = .ok i) :
    operandBytes i <+: [opa, opb] := by
  unfold decode at h
  split at h <;> cases h <;> exact ⟨_, rfl⟩

/-- The opcode byte of an instruction and two bytes that begin with its operand bytes decode to it. -/
theorem decode_of_operandBytes {i : Instr} {opa opb : Byte} (operands : operandBytes i <+: [opa, opb]) :
    decode (opcodeOf i) opa opb = .ok i := by
  obtain ⟨ignored, window⟩ := operands
  cases i <;> cases window <;> rfl

/-- Settles O8: forward by the inversion of the decoder, backward by decoding the instruction's own bytes. -/
theorem decodeAndEncodeAgree : Obligations.DecodeAndEncodeAgree := by
  intro ir opa opb i
  rw [window_begins_with_encode_iff]
  constructor
  · intro decodes
    exact ⟨opcodeOf_of_decode decodes, window_begins_with_operandBytes decodes⟩
  · rintro ⟨rfl, operands⟩
    exact decode_of_operandBytes operands

/-! ## Lengths and opcode bits (R45, R52) -/

theorem instrLength_eq_succ_operandBytes (i : Instr) : instrLength i = 1 + (operandBytes i).length := by
  rw [instrLength_eq_length_encode, encode, List.length_cons, Nat.add_comm]

theorem instrLength_bounds (i : Instr) : 1 ≤ instrLength i ∧ instrLength i ≤ 3 := by
  unfold instrLength
  cases formatOf i <;> decide

/-- Bits 7:6 of every opcode byte in the row of a format are the format's length less one. -/
theorem div_64_of_mem_row (f : Format) : ∀ op ∈ opcodeRow f, 1 + op.toNat / 64 = formatLength f := by
  cases f <;> decide

theorem opcodeOf_div_64 (i : Instr) : (opcodeOf i).toNat / 64 = (operandBytes i).length := by
  have length := div_64_of_mem_row (formatOf i) (opcodeOf i) (opcodeOf_mem_row i)
  rw [← instrLength, instrLength_eq_succ_operandBytes] at length
  exact Nat.add_left_cancel length

/-- Bit 5 of the opcode marks the ALU instructions, CMP among them. -/
theorem opcodeOf_bit_5 (i : Instr) :
    (opcodeOf i).getLsbD 5 = true ↔ isPlainAlu i = true ∨ ∃ a b, i = .cmp a b := by
  cases i <;> simp [opcodeOf, isPlainAlu]

/-- Bit 4 of the opcode marks the control transfers. -/
theorem opcodeOf_bit_4 (i : Instr) : (opcodeOf i).getLsbD 4 = isTransfer i := by
  cases i <;> simp [opcodeOf, isTransfer]

/-- The format, and so the length, is a function of the opcode byte. -/
theorem instrLength_of_opcodeOf {i j : Instr} (same : opcodeOf i = opcodeOf j) : instrLength i = instrLength j := by
  have row := opcodeOf_mem_row i
  rw [same, ← formatOf_eq_iff_mem_row] at row
  rw [instrLength, instrLength, row]

/-- Settles O9: the lengths by the format, the bits by the opcode of each instruction. -/
theorem opcodeBitsMatchTheLength : Obligations.OpcodeBitsMatchTheLength := by
  refine ⟨fun i => ?_, fun _ _ => instrLength_of_opcodeOf⟩
  obtain ⟨positive, atMostThree⟩ := instrLength_bounds i
  exact ⟨positive, atMostThree, instrLength_eq_succ_operandBytes i, opcodeOf_div_64 i, opcodeOf_bit_5 i,
    Bool.eq_iff_iff.mp (opcodeOf_bit_4 i)⟩

/-- Settles O10: each of the four words is a literal arm of the decoder. -/
theorem writtenOutWordsDecode : Obligations.WrittenOutWordsDecode :=
  ⟨rfl, rfl, rfl, rfl⟩

end Sys2Proof.Machine
end

section
/-!
PROOFS. What an instruction can change, field by field: the pc, fl, memory, the registers and the output. Each field is
one inversion lemma over the effects of an instruction; a step adds to it the errors of the fetch, which change no field
but the latch, and the opcode byte that the fetched instruction was decoded from.
-/
namespace Sys2Proof.Machine

/-! ## The inversion of a step -/

/-- A step changes the error latch alone, or it is an effect of the instruction that the code bytes decode to. -/
theorem step_effect {s t : State} (h : step s = .next t) :
    (∃ e, t = raise e s) ∨
      ∃ i, s.pc.toNat ≤ 253 ∧ decode (codeByte s 0) (codeByte s 1) (codeByte s 2) = .ok i ∧ Effect s i t := by
  obtain ⟨-, -, ⟨e, -, raised⟩ | ⟨i, fetches, hexec⟩⟩ := step_cases h
  · exact .inl ⟨e, raised⟩
  · obtain ⟨fits, decodes⟩ := decode_of_fetchInstr fetches
    exact .inr ⟨i, fits, decodes, effect_of_exec hexec⟩

/-! ## The program counter (R14) -/

/-- Within the range of a fetch an advance by an instruction's length does not wrap. -/
theorem advance_pc_toNat {s : State} (fits : s.pc.toNat ≤ 253) {len : PcWord} (short : len.toNat ≤ 3) :
    (s.advance len).pc.toNat = s.pc.toNat + len.toNat := by
  rw [State.advance_pc, BitVec.toNat_add_of_lt (by omega)]

theorem jump_pc_le {s : State} (fits : s.pc.toNat ≤ 253) (taken : Bool) (target : Byte) :
    (if taken then s.jumpTo target else s.advance 2).pc.toNat ≤ 255 := by
  split
  case isTrue =>
    rw [jumpTo_pc_toNat]
    exact Nat.le_of_lt_succ target.isLt
  case isFalse =>
    rw [advance_pc_toNat fits (by decide)]
    exact Nat.add_le_add_right fits 2

/-- An effect that raises nothing advances the pc by the instruction's length, or is that of a control transfer and
leaves an address. -/
theorem Effect.pc_cases {i : Instr} {s t : State} (effect : Effect s i t) (fits : s.pc.toNat ≤ 253) :
    (∃ e, t = raise e s) ∨ (isTransfer i = false ∧ t.pc.toNat = s.pc.toNat + instrLength i) ∨
      (isTransfer i = true ∧ t.pc.toNat ≤ 255) := by
  cases effect with
  | badFirst | badSecond | modZero => exact .inl ⟨_, rfl⟩
  | jmp ra => exact .inr (.inr ⟨rfl, jump_pc_le fits true _⟩)
  | call | ret => exact .inr (.inr ⟨rfl, jump_pc_le (s := s) fits true _⟩)
  | jeq | jne | jgt | jlt | jge | jle => exact .inr (.inr ⟨rfl, jump_pc_le fits _ _⟩)
  | _ => exact .inr (.inl ⟨rfl, advance_pc_toNat (s := s) fits (by decide)⟩)

/-- Settles O38: by the effect on the pc; an effect that raises leaves an error. -/
theorem pcAdvancesByTheLength : Obligations.PcAdvancesByTheLength := by
  intro i s t fits h noErr
  obtain ⟨e, rfl⟩ | ⟨plain, advanced⟩ | ⟨transfer, address⟩ := (effect_of_exec h).pc_cases fits
  · cases noErr
  · exact ⟨fun _ => advanced, fun transfer => absurd transfer (Bool.eq_false_iff.mp plain)⟩
  · exact ⟨fun plain => absurd transfer (Bool.eq_false_iff.mp plain), fun _ => address⟩

/-! ## The flags (R15) -/

/-- An effect leaves fl as it was, or is CMP's and leaves the flags of a comparison. -/
theorem Effect.fl_cases {i : Instr} {s t : State} (effect : Effect s i t) :
    t.fl = s.fl ∨ ∃ a b x y, i = .cmp a b ∧ t.fl = compareFlags x y := by
  cases effect with
  | cmp ra rb => exact .inr ⟨_, _, _, _, rfl, rfl⟩
  | jeq | jne | jgt | jlt | jge | jle => left; split <;> rfl
  | _ => exact .inl rfl

/-- Settles O42: a step with another fl is CMP's effect, decoded from its opcode byte. -/
theorem onlyCmpChangesTheFlags : Obligations.OnlyCmpChangesTheFlags := by
  intro s t h changed
  obtain ⟨e, rfl⟩ | ⟨i, fits, decodes, effect⟩ := step_effect h
  · exact absurd rfl changed
  · obtain same | ⟨a, b, -, -, rfl, -⟩ := effect.fl_cases
    · exact absurd same changed
    · exact ⟨fits, (opcodeOf_of_decode decodes).symm⟩

/-! ## Memory (R37, R38) -/

/-- An effect leaves memory as it was, or is that of PUSH or CALL and stores one byte below the old `sp`. -/
theorem Effect.mem_cases {i : Instr} {s t : State} (effect : Effect s i t) :
    t.mem = s.mem ∨ ((∃ a, i = .push a ∨ i = .call a) ∧ ∃ v, t.mem = Memory.write s.mem (spDec s).sp.toNat v) := by
  cases effect with
  | push ra => exact .inr ⟨⟨_, .inl rfl⟩, _, by rw [spDec_sp]; rfl⟩
  | call ra => exact .inr ⟨⟨_, .inr rfl⟩, _, by rw [spDec_sp]; rfl⟩
  | jeq | jne | jgt | jlt | jge | jle => left; split <;> rfl
  | _ => exact .inl rfl

/-- Settles O39: a step that writes memory is the effect of PUSH or CALL, which writes one cell. -/
theorem onlyPushAndCallWriteMemory : Obligations.OnlyPushAndCallWriteMemory := by
  intro s t h
  obtain ⟨e, rfl⟩ | ⟨i, -, decodes, effect⟩ := step_effect h
  · exact .inl fun _ => rfl
  · obtain same | ⟨⟨a, writer⟩, v, written⟩ := effect.mem_cases
    · exact .inl fun _ => by rw [same]
    · refine .inr ⟨?opcode, fun b other => by rw [written, Memory.read_write_ne _ _ other]⟩
      rw [← opcodeOf_of_decode decodes]
      exact writer.imp (congrArg opcodeOf) (congrArg opcodeOf)

/-! ## The registers (R11) -/

theorem ne_of_operand_ne {d r : RegIdx} (h : ¬ (regByte d).toNat = r.val) : r ≠ d := by
  rintro rfl
  exact h (regByte_toNat r)

/-- An effect changes no register outside the Writes column of its instruction. -/
theorem Effect.reg_of_not_mayWriteReg {i : Instr} {s t : State} (effect : Effect s i t) {r : RegIdx}
    (notListed : ¬ mayWriteReg i r) : t.reg r = s.reg r := by
  cases effect with
  | ldi | not | add | mul | mod | and | or | xor | shl | shr =>
    exact State.reg_setReg_ne s _ r _ (ne_of_operand_ne notListed)
  | push | call => exact spDec_reg_ne s notListed
  | ret => exact spInc_reg_ne s notListed
  | pop ra =>
    obtain ⟨notSp, notDest⟩ := not_or.mp notListed
    exact (spInc_reg_ne _ notSp).trans (State.reg_setReg_ne s ra r _ (ne_of_operand_ne notDest))
  | jeq | jne | jgt | jlt | jge | jle => split <;> rfl
  | _ => rfl

/-- Settles O40: by the effect on the registers. -/
theorem registerWritesFollowTheTable : Obligations.RegisterWritesFollowTheTable :=
  fun _ _ _ h _ => (effect_of_exec h).reg_of_not_mayWriteReg

/-! ## The output (R77, R78) -/

/-- An effect leaves the output as it was, or is PRN's and appends the register it names. -/
theorem Effect.out_cases {i : Instr} {s t : State} (effect : Effect s i t) :
    t.out = s.out ∨ ∃ r, i = .prn (regByte r) ∧ t.out = s.out ++ [s.reg r] := by
  cases effect with
  | prn ra => exact .inr ⟨ra, rfl, rfl⟩
  | jeq | jne | jgt | jlt | jge | jle => left; split <;> rfl
  | _ => exact .inl rfl

/-- Settles O43: a step that extends the output is PRN's effect, whose opcode and operand are the code bytes. -/
theorem onlyPrnExtendsTheOutput : Obligations.OnlyPrnExtendsTheOutput := by
  intro s t h
  obtain ⟨e, rfl⟩ | ⟨i, -, decodes, effect⟩ := step_effect h
  · exact .inl rfl
  · obtain same | ⟨r, rfl, appended⟩ := effect.out_cases
    · exact .inl same
    · have operand : regByte r = codeByte s 1 := List.head_eq_of_cons_eq (regOperands_of_decode decodes)
      exact .inr ⟨(opcodeOf_of_decode decodes).symm, r, by rw [← operand, regByte_toNat], appended⟩

end Sys2Proof.Machine
end

section
/-!
PROOFS. The invariant (R13, R15, R16 and the canonical form of memory). Each of its four parts is kept by a step for a
reason of its own: the pc moves only from where a fetch fits, fl changes only to the flags of a comparison, a step that
latches an error leaves the core running, and memory changes only by a store below 256.
-/
namespace Sys2Proof.Machine

theorem flLegal_compareFlags {t : State} {x y : Byte} (compared : t.fl = compareFlags x y) : flLegal t := by
  unfold flLegal
  obtain ⟨-, flags⟩ | ⟨-, flags⟩ | ⟨-, flags⟩ := compareFlags_cases x y <;> simp [compared, flags]

theorem Effect.pc_legal {i : Instr} {s t : State} (effect : Effect s i t) (fits : s.pc.toNat ≤ 253) : pcLegal t := by
  unfold pcLegal
  obtain ⟨-, short⟩ := instrLength_bounds i
  obtain ⟨e, rfl⟩ | ⟨-, advanced⟩ | ⟨-, address⟩ := effect.pc_cases fits
  · rw [raise_pc]
    omega
  · omega
  · omega

theorem Effect.fl_legal {i : Instr} {s t : State} (effect : Effect s i t) (legal : flLegal s) : flLegal t := by
  obtain same | ⟨-, -, x, y, -, compared⟩ := effect.fl_cases
  · unfold flLegal
    rwa [same]
  · exact flLegal_compareFlags compared

theorem Effect.mem_wf {i : Instr} {s t : State} (effect : Effect s i t) (wf : Memory.wf s.mem = true) :
    Memory.wf t.mem = true := by
  obtain same | ⟨-, v, written⟩ := effect.mem_cases
  · rwa [same]
  · rw [written]
    exact Memory.wf_write wf (BitVec.isLt _)

/-- Settles O3: each part of the invariant by its own lemma; an error raised by the fetch changes none of them. -/
theorem everyStepKeepsTheInvariant : Obligations.EveryStepKeepsTheInvariant := by
  intro s t inv h
  have errRunning : errWhileRunning t := running_of_step_err h
  obtain ⟨e, rfl⟩ | ⟨i, fits, -, effect⟩ := step_effect h
  · exact ⟨inv.pc_legal, inv.fl_legal, errRunning, inv.mem_wf⟩
  · exact ⟨effect.pc_legal fits, effect.fl_legal inv.fl_legal, errRunning, effect.mem_wf inv.mem_wf⟩

/-- Settles O2: each part by the value that reset gives its field. -/
theorem resetMeetsTheInvariant : Obligations.ResetMeetsTheInvariant where
  pc_legal := Nat.zero_le 256
  fl_legal := .inl rfl
  err_running := fun err => absurd rfl err
  mem_wf := reset_mem_wf

theorem hostReset_eq_next {s t : State} (h : hostReset s = .next t) : t = State.reset := by
  unfold hostReset at h
  split at h
  · cases h
  · exact (Host.Outcome.next.inj h).symm

/-- Settles O4: reset gives the reset state, run sets `running` on a core without error, and a load that fits keeps
memory canonical. -/
theorem hostOperationsKeepTheInvariant : Obligations.HostOperationsKeepTheInvariant := by
  rintro s t inv (resets | runs | ⟨bytes, loads⟩)
  · rw [hostReset_eq_next resets]
    exact resetMeetsTheInvariant
  · obtain ⟨-, -, rfl⟩ := hostRun_eq_next runs
    exact ⟨inv.pc_legal, inv.fl_legal, fun _ => rfl, inv.mem_wf⟩
  · obtain ⟨-, fits, rfl⟩ := hostLoad_eq_next loads
    exact ⟨inv.pc_legal, inv.fl_legal, inv.err_running, Memory.wf_writeAll inv.mem_wf (by rwa [Nat.zero_add])⟩

end Sys2Proof.Machine
end

section
/-!
PROOFS. The outcomes of an instruction and of a step (R61 to R67, R120 to R126): every instruction answers a next state,
an error is all that a failing one changes, and a core steps exactly while it runs without an error.
-/
namespace Sys2Proof.Machine

/-! ## Instructions -/

/-- Settles O36: every instruction has an effect in every state. -/
theorem everyInstructionAnswersANextState : Obligations.EveryInstructionAnswersANextState := by
  intro i s
  obtain ⟨t, hexec, -⟩ := exec_effect i s
  exact ⟨t, hexec⟩

/-- Settles O16: an effect on a state without error keeps the latch empty or raises. -/
theorem failingInstructionChangesNothing : Obligations.FailingInstructionChangesNothing := by
  intro i s t noErr h err
  obtain keeps | ⟨e, rfl, -⟩ := (effect_of_exec h).err_cases
  · exact absurd (keeps.trans noErr) err
  · rfl

theorem regOperands_length_le (i : Instr) : i.regOperands.length ≤ 2 := by
  cases i <;> simp [Instr.regOperands]

/-- The first register operand above 7 is raised, whether it is the first operand or the second after a legal one. -/
theorem raises_of_find_bad {i : Instr} {a : Byte} (s : State)
    (found : i.regOperands.find? (fun a => decide (7 < a.toNat)) = some a) :
    Raises i s (.badRegisterIndex (opcodeOf i) s.pc a) := by
  obtain ⟨bad, before, after, operands, legal⟩ := List.find?_eq_some_iff_append.mp found
  have bad : 7 < a.toNat := of_decide_eq_true bad
  have atMostTwo := regOperands_length_le i
  match before, after with
  | [], _ => exact raises_of_bad_first s (by rw [operands]; rfl) bad
  | [b], [] =>
    have legal : b.toNat ≤ 7 := by simpa using legal
    exact raises_of_bad_second s operands legal bad
  | [_], _ :: _ => simp [operands] at atMostTwo
  | _ :: _ :: _, _ => simp [operands] at atMostTwo

theorem wellFormed_of_legal {i : Instr} (legal : ∀ a ∈ i.regOperands, a.toNat ≤ 7) : i.wellFormed = true :=
  List.all_eq_true.mpr fun a operand => (regOperandOk_iff a).mpr (Nat.lt_succ_of_le (legal a operand))

/-- With legal register operands the one error left is MOD's DivideByZero. -/
theorem Effect.err_of_legal {i : Instr} {s t : State} (effect : Effect s i t)
    (legal : ∀ a ∈ i.regOperands, a.toNat ≤ 7) : t.err = s.err ∨ ∃ a b, t.err = some (.divideByZero a b) := by
  cases effect with
  | badFirst i a first bad => exact absurd (legal a (List.mem_of_head? first)) (Nat.not_le.mpr bad)
  | badSecond i ra b both bad => exact absurd (legal b (by simp [both])) (Nat.not_le.mpr bad)
  | modZero ra rb zero => exact .inr ⟨_, _, rfl⟩
  | jeq | jne | jgt | jlt | jge | jle => exact .inl (State.err_jump _ s _ 2)
  | _ => exact .inl rfl

/-- Settles O37: by the first register operand above 7, if there is one. -/
theorem registerOperandsAreValidatedFirst : Obligations.RegisterOperandsAreValidatedFirst := by
  intro i s
  cases found : i.regOperands.find? (fun a => decide (7 < a.toNat)) with
  | some a => exact raises_of_find_bad s found
  | none =>
    have legal : ∀ a ∈ i.regOperands, a.toNat ≤ 7 := by simpa using found
    refine ⟨wellFormed_of_legal legal, fun noErr => ?_⟩
    obtain ⟨t, hexec, effect⟩ := exec_effect i s
    refine ⟨t, hexec, fun op p x => ?_⟩
    obtain keeps | ⟨a, b, divides⟩ := effect.err_of_legal legal
    · simp [keeps, noErr]
    · simp [divides]

/-! ## Steps -/

/-- Settles O11: a window that fits is fetched whole, and the step of a running core is the decoded instruction. -/
theorem stepRunsTheDecodedInstruction : Obligations.StepRunsTheDecodedInstruction := by
  intro s i running noErr fits decodes
  have fetches : fetchInstr s = .ok i := by simp only [fetchInstr, fetch_eq_codeBytes fits, decodes]
  exact step_of_fetchInstr running noErr fetches

/-- Where the window fits, the error of a step is not OutOfBounds. -/
theorem firstError_ne_outOfBounds {s : State} (fits : s.pc.toNat ≤ 253) (a : Nat) :
    firstError s ≠ some (.outOfBounds a) := by
  unfold firstError
  rw [if_neg (Nat.not_lt.mpr fits)]
  split_ifs <;> simp

/-- Settles O12: at the top the fetch raises OutOfBounds(256); where the window fits, the step raises `firstError`. -/
theorem fetchWindowMustFitInMemory : Obligations.FetchWindowMustFitInMemory := by
  refine fun s running noErr => ⟨?top, ?fits⟩
  case top =>
    rintro ⟨above, legal⟩
    exact step_of_fetchError running noErr (fetchInstr_of_top above legal)
  case fits =>
    intro fits
    obtain ⟨t, steps, first, -⟩ := stepRaisesTheFirstErrorInOrder s running noErr
    exact ⟨t, steps, fun a => first ▸ firstError_ne_outOfBounds fits a⟩

theorem step_of_err {s : State} {e : FatalError} (err : s.err = some e) : step s = .fault (.fatalError e) := by
  simp only [step, stepGuard, err]

theorem step_of_stopped {s : State} (noErr : s.err = none) (stopped : s.running = false) :
    step s = .fault .notRunning := by
  simp [step, stepGuard, noErr, stopped]

/-- Settles O14: forward by the inversion of `step`, backward by `firstError`, which names what the step answers. -/
theorem coreStepsExactlyWhileRunningWithoutError : Obligations.CoreStepsExactlyWhileRunningWithoutError := by
  refine fun s => ⟨⟨?steps, ?runs⟩, fun _ => step_of_err, step_of_stopped⟩
  case steps =>
    rintro ⟨t, h⟩
    obtain ⟨running, noErr, -⟩ := step_cases h
    exact ⟨running, noErr⟩
  case runs =>
    rintro ⟨running, noErr⟩
    obtain ⟨t, steps, -⟩ := stepRaisesTheFirstErrorInOrder s running noErr
    exact ⟨t, steps⟩

end Sys2Proof.Machine
end

section
/-!
PROOFS. The output is never read (R78): putting earlier values before `out` commutes with every effect, and the fetch
does not look at `out`.
-/
namespace Sys2Proof.Machine

/-- The state whose sink has received `earlier` before what it has received. -/
def State.prependOut (s : State) (earlier : List Byte) : State := { s with out := earlier ++ s.out }

theorem State.prependOut_jump (taken : Bool) (s : State) (target : Byte) (len : PcWord) (earlier : List Byte) :
    (if taken then s.jumpTo target else s.advance len).prependOut earlier =
      if taken then (s.prependOut earlier).jumpTo target else (s.prependOut earlier).advance len := by
  cases taken <;> rfl

theorem State.prependOut_emit (s : State) (v : Byte) (len : PcWord) (earlier : List Byte) :
    ((s.emit v).advance len).prependOut earlier = ((s.prependOut earlier).emit v).advance len := by
  simp only [prependOut, emit, advance, setPc, List.append_assoc]

/-- Every effect is the same whatever the sink has received before, which it hands on. -/
theorem Effect.exec_prependOut {i : Instr} {s t : State} (effect : Effect s i t) (earlier : List Byte) :
    exec i (s.prependOut earlier) = .next (t.prependOut earlier) := by
  cases effect with
  | badFirst i a first bad => exact exec_bad_first (s.prependOut earlier) first bad
  | badSecond i ra c both bad => exact exec_bad_second (s.prependOut earlier) both bad
  | modZero ra rb zero => exact exec_mod_zero (s.prependOut earlier) ra rb zero
  | hlt => exact exec_hlt (s.prependOut earlier)
  | ldi ra v => exact exec_ldi (s.prependOut earlier) ra v
  | prn ra => rw [State.prependOut_emit]; exact exec_prn (s.prependOut earlier) ra
  | push ra => exact exec_push (s.prependOut earlier) ra
  | pop ra => exact exec_pop (s.prependOut earlier) ra
  | call ra => exact exec_call (s.prependOut earlier) ra
  | ret => exact exec_ret (s.prependOut earlier)
  | add ra rb => exact exec_add (s.prependOut earlier) ra rb
  | mul ra rb => exact exec_mul (s.prependOut earlier) ra rb
  | mod ra rb nonzero => exact exec_mod (s.prependOut earlier) ra rb nonzero
  | and ra rb => exact exec_and (s.prependOut earlier) ra rb
  | or ra rb => exact exec_or (s.prependOut earlier) ra rb
  | xor ra rb => exact exec_xor (s.prependOut earlier) ra rb
  | shl ra rb => exact exec_shl (s.prependOut earlier) ra rb
  | shr ra rb => exact exec_shr (s.prependOut earlier) ra rb
  | not ra => exact exec_not (s.prependOut earlier) ra
  | cmp ra rb => exact exec_cmp (s.prependOut earlier) ra rb
  | jmp ra => exact exec_jmp (s.prependOut earlier) ra
  | jeq ra => rw [State.prependOut_jump]; exact exec_jeq (s.prependOut earlier) ra
  | jne ra => rw [State.prependOut_jump]; exact exec_jne (s.prependOut earlier) ra
  | jgt ra => rw [State.prependOut_jump]; exact exec_jgt (s.prependOut earlier) ra
  | jlt ra => rw [State.prependOut_jump]; exact exec_jlt (s.prependOut earlier) ra
  | jge ra => rw [State.prependOut_jump]; exact exec_jge (s.prependOut earlier) ra
  | jle ra => rw [State.prependOut_jump]; exact exec_jle (s.prependOut earlier) ra

/-- Settles O44: by what the step fetched, an error or an instruction. -/
theorem outputIsNeverRead : Obligations.OutputIsNeverRead := by
  intro s t h earlier
  obtain ⟨running, noErr, ⟨e, fetches, rfl⟩ | ⟨i, fetches, hexec⟩⟩ := step_cases h
  · exact step_of_fetchError (s := s.prependOut earlier) running noErr fetches
  · have executes := step_of_fetchInstr (s := s.prependOut earlier) running noErr fetches
    exact executes.trans ((effect_of_exec hexec).exec_prependOut earlier)

end Sys2Proof.Machine
end

section
/-!
PROOFS. The stack round trips (R41, R85). The states after PUSH and CALL have names. What PUSH r stored is what r then
holds, the decremented `sp` for r = 7 included, so POP r writes nothing new and its increment takes the decrement back;
RET takes back the decrement of CALL in the same way.
-/
namespace Sys2Proof.Machine

/-! ## The states after PUSH and CALL -/

/-- The state after PUSH r (R81). -/
def afterPush (s : State) (r : RegIdx) : State :=
  ((spDec s).setMem (Memory.write s.mem (s.sp - 1#8).toNat ((spDec s).reg r))).advance 2

/-- The state after CALL r (R83). -/
def afterCall (s : State) (r : RegIdx) : State :=
  ((spDec s).setMem (Memory.write s.mem (s.sp - 1#8).toNat (returnByte s))).jumpTo ((spDec s).reg r)

theorem exec_push_eq_afterPush (s : State) (r : RegIdx) : exec (.push (regByte r)) s = .next (afterPush s r) :=
  exec_push s r

theorem exec_call_eq_afterCall (s : State) (r : RegIdx) : exec (.call (regByte r)) s = .next (afterCall s r) :=
  exec_call s r

theorem afterPush_reg (s : State) (r q : RegIdx) : (afterPush s r).reg q = (spDec s).reg q := rfl

theorem afterCall_reg (s : State) (r q : RegIdx) : (afterCall s r).reg q = (spDec s).reg q := rfl

theorem read_afterPush (s : State) (r : RegIdx) (a : Nat) :
    Memory.read (afterPush s r).mem a = if a = (spDec s).sp.toNat then (spDec s).reg r else Memory.read s.mem a := by
  rw [spDec_sp]
  exact Memory.read_write s.mem _ a _

theorem read_afterCall_sp (s : State) (r : RegIdx) :
    Memory.read (afterCall s r).mem (afterCall s r).sp.toNat = returnByte s :=
  read_pushed s (returnByte s)

/-! ## The fetch after a PUSH (R41) -/

/-- Settles O46: the window of the next fetch fits, and each of its bytes reads from the memory the PUSH left. -/
theorem fetchSeesAPushedByte : Obligations.FetchSeesAPushedByte := by
  intro s t ra fits h
  obtain rfl : afterPush s ra = t := Host.Outcome.next.inj ((exec_push_eq_afterPush s ra).symm.trans h)
  have windowFits : (afterPush s ra).pc.toNat ≤ 253 := by
    have advanced : (afterPush s ra).pc.toNat = s.pc.toNat + 2 := advance_pc_toNat (s := s) (by omega) (by decide)
    omega
  rw [fetch_eq_codeBytes windowFits]
  simp only [codeByte, read_afterPush]

/-! ## The decrement and the increment of `sp` -/

theorem State.setReg_self (s : State) (r : RegIdx) : s.setReg r (s.reg r) = s := by
  simp [setReg, reg]

/-- The increment takes the decrement back. -/
theorem spInc_sp_of_spDec {s t : State} (decremented : t.sp = (spDec s).sp) : (spInc t).sp = s.sp := by
  rw [spInc_sp, decremented, spDec_sp, BitVec.sub_add_cancel]

theorem spInc_reg_of_spDec {s t : State} (decremented : ∀ q, t.reg q = (spDec s).reg q) (q : RegIdx) :
    (spInc t).reg q = s.reg q := by
  by_cases isSp : q = 7
  · rw [isSp]
    exact spInc_sp_of_spDec (decremented 7)
  · rw [spInc_reg_ne t isSp, decremented, spDec_reg_ne s isSp]

/-! ## PUSH then POP (R85 (a)) -/

/-- The byte that PUSH r stored is what register r holds after it. -/
theorem read_afterPush_sp (s : State) (r : RegIdx) :
    Memory.read (afterPush s r).mem (afterPush s r).sp.toNat = (afterPush s r).reg r :=
  read_pushed s ((spDec s).reg r)

theorem exec_pop_afterPush (s : State) (r : RegIdx) :
    exec (.pop (regByte r)) (afterPush s r) = .next ((spInc (afterPush s r)).advance 2) := by
  rw [exec_pop, read_afterPush_sp, State.setReg_self]

theorem spInc_afterPush_reg (s : State) (r q : RegIdx) : (spInc (afterPush s r)).reg q = s.reg q :=
  spInc_reg_of_spDec (afterPush_reg s r) q

/-- Settles O47: the POP after a PUSH is an increment of `sp` that takes the decrement back. -/
theorem pushThenPopRestoresTheRegisters : Obligations.PushThenPopRestoresTheRegisters := by
  intro s r
  refine ⟨_, _, exec_push_eq_afterPush s r, exec_pop_afterPush s r, spInc_afterPush_reg s r, ?_⟩
  calc (afterPush s r).pc + 2 = s.pc + (2 + 2) := BitVec.add_assoc s.pc 2 2
    _ = s.pc + 4 := rfl

/-! ## CALL and RET (R85 (b)) -/

/-- RET where `sp` and its cell are as a CALL left them: the pc is the CALL's address plus 2 (C2). -/
theorem exec_ret_afterCall {s u : State} {r : RegIdx} (fits : s.pc.toNat ≤ 253) (sp : u.sp = (afterCall s r).sp)
    (cell : Memory.read u.mem u.sp.toNat = Memory.read (afterCall s r).mem (afterCall s r).sp.toNat) :
    ∃ w, exec .ret u = .next w ∧ w.pc.toNat = s.pc.toNat + 2 ∧ w.sp = s.sp ∧ ∀ q, w.reg q = (spInc u).reg q := by
  refine ⟨_, exec_ret u, ?pc, ?sp, fun _ => rfl⟩
  case pc => rw [cell, read_afterCall_sp, jumpTo_pc_toNat, returnByte_toNat fits]
  case sp => exact spInc_sp_of_spDec sp

/-- Settles O48: by what RET does where `sp` and its cell are as the CALL left them. -/
theorem returnResumesAfterTheCall : Obligations.ReturnResumesAfterTheCall := by
  intro s t u r fits h sp cell
  obtain rfl : afterCall s r = t := Host.Outcome.next.inj ((exec_call_eq_afterCall s r).symm.trans h)
  obtain ⟨w, returns, pc, restored, -⟩ := exec_ret_afterCall fits sp cell
  exact ⟨w, returns, pc, restored⟩

/-! ## A balanced round (R85 (c)) -/

/-- A PUSH leaves the cell at the old `sp` alone: it writes the one below. -/
theorem read_afterPush_old_sp (s : State) (r : RegIdx) :
    Memory.read (afterPush s r).mem s.sp.toNat = Memory.read s.mem s.sp.toNat := by
  have below : s.sp.toNat ≠ (spDec s).sp.toNat := by
    have := s.sp.isLt
    rw [spDec_sp_toNat]
    omega
  rw [read_afterPush, if_neg below]

/-- Settles O49: PUSH and POP give back the registers and the cell at `sp` of the CALL, from which RET returns. -/
theorem balancedRoundLeavesTheRegisters : Obligations.BalancedRoundLeavesTheRegisters := by
  intro s c r fits
  have restored := spInc_afterPush_reg (afterCall s c) r
  have sp : ((spInc (afterPush (afterCall s c) r)).advance 2).sp = (afterCall s c).sp := restored 7
  have cell := read_afterPush_old_sp (afterCall s c) r
  obtain ⟨w, returns, pc, -, regs⟩ := exec_ret_afterCall fits sp (by rw [sp]; exact cell)
  refine ⟨_, _, _, w, exec_call_eq_afterCall s c, exec_push_eq_afterPush _ r, exec_pop_afterPush _ r, returns,
    fun q => ?_, pc⟩
  rw [regs]
  exact spInc_reg_of_spDec (fun p => (restored p).trans (afterCall_reg s c p)) q

end Sys2Proof.Machine
end

section
/-!
PROOFS. Memory writes (R32) and the host's operations (R60, R131, R143, R144). A core is stepping, and then the host has
no move, or it is not, and then each operation is what it does there.
-/
namespace Sys2Proof.Machine

/-! ## Memory writes (R32, R39) -/

/-- Settles O6: the two sides of the bound 256, the stored byte and the others by the read after a write. -/
theorem memWriteStoresOneByteAndNothingElse : Obligations.MemWriteStoresOneByteAndNothingElse := by
  refine fun s a v => ⟨fun inBounds => ?stores, fun above => memWrite_of_ge v s above⟩
  have fits : a < 256 := Nat.lt_succ_of_le inBounds
  refine ⟨_, memWrite_of_lt v s fits, ?read, ?others, fun _ _ => rfl, rfl, rfl, ⟨rfl, rfl⟩, rfl⟩
  case read => rw [memRead_of_lt _ fits, State.setMem_mem, Memory.read_write_same]
  case others => exact fun _ other => Memory.read_write_ne s.mem v other

/-! ## run (R60, D10) -/

theorem hostRun_of_err {s : State} (err : s.err ≠ none) : hostRun s = .refused .runAfterError := by
  obtain ⟨e, he⟩ := Option.ne_none_iff_exists'.mp err
  simp only [hostRun, he]

theorem hostRun_of_active {s : State} (noErr : s.err = none) (running : s.running = true) :
    hostRun s = .refused .runWhileRunning := by
  simp only [hostRun, noErr, running, if_true]

/-- Settles O50: by the error latch and the running flag. -/
theorem runSetsRunningOrIsRefused : Obligations.RunSetsRunningOrIsRefused :=
  fun _ => ⟨fun noErr stopped => hostRun_of_stopped stopped noErr, hostRun_of_err, hostRun_of_active⟩

/-- Settles O54: a step that stops the core is HLT's, which latches no error, so `run` is accepted. -/
theorem runResumesAfterHlt : Obligations.RunResumesAfterHlt := by
  intro s t h stopped
  have noErr : t.err = none := by
    by_contra err
    rw [running_of_step_err h err] at stopped
    cases stopped
  exact ⟨(hlt_of_step_stopped h stopped).2, hostRun_of_stopped stopped noErr⟩

/-- Settles O52: the byte at address 0 of a reset memory is no opcode. -/
theorem runOfAnUnloadedMachineStopsAtOnce : Obligations.RunOfAnUnloadedMachineStopsAtOnce := by
  have steps := unknownOpcodeIsRaised (State.reset.setRunning true) rfl rfl (Nat.zero_le 253) (by decide)
  exact ⟨_, _, hostRun_of_stopped rfl rfl, steps, rfl, step_of_err rfl, hostRun_of_err (Option.some_ne_none _)⟩

/-! ## reset, load and observe (R131, R144) -/

theorem coreActive_eq_false_iff (s : State) : coreActive s = false ↔ s.running = false ∨ s.err ≠ none := by
  rw [← Bool.not_eq_true, coreActive_iff, not_and_or, Bool.not_eq_true]

/-- Settles O53: each operation asks first whether the core is stepping. -/
theorem hostActsOnlyOnAStoppedCore : Obligations.HostActsOnlyOnAStoppedCore := by
  refine fun s => ⟨?stepping, fun stopped => ?stopped⟩
  case stepping =>
    rintro ⟨running, noErr⟩
    have active := (coreActive_iff s).mpr ⟨running, noErr⟩
    exact ⟨if_pos active, fun _ => if_pos active, hostRun_of_active noErr running, if_pos active⟩
  case stopped =>
    have inactive := Bool.eq_false_iff.mp ((coreActive_eq_false_iff s).mpr stopped)
    exact ⟨if_neg inactive, if_neg inactive⟩

theorem hostLoad_of_fits {bytes : List Byte} {s : State} (inactive : coreActive s = false)
    (fits : bytes.length ≤ 256) : hostLoad bytes s = .next (s.setMem (Memory.writeAll s.mem 0 bytes)) := by
  rw [hostLoad, if_neg (Bool.eq_false_iff.mp inactive), if_pos fits]

theorem hostLoad_of_too_long {bytes : List Byte} {s : State} (inactive : coreActive s = false)
    (long : 256 < bytes.length) : hostLoad bytes s = .refused .loadTooLong := by
  rw [hostLoad, if_neg (Bool.eq_false_iff.mp inactive), if_neg (Nat.not_le.mpr long)]

/-- The address 0 case of `Memory.read_writeAll`. -/
theorem read_writeAll_zero (m : Memory) (bytes : List Byte) (a : Nat) :
    Memory.read (Memory.writeAll m 0 bytes) a = if h : a < bytes.length then bytes[a] else Memory.read m a := by
  simp [Memory.read_writeAll]

/-- Settles O51: the bytes of a load that fits read back from address 0, and it changes memory alone. -/
theorem loadPlacesTheBytesFromZero : Obligations.LoadPlacesTheBytesFromZero := by
  refine fun s bytes inactive => ⟨fun fits => ?loads, hostLoad_of_too_long inactive⟩
  refine ⟨_, hostLoad_of_fits inactive fits, fun k h => ?placed, fun a past => ?others, fun _ _ => rfl, rfl, rfl,
    ⟨rfl, rfl⟩, rfl⟩
  case placed => rw [State.setMem_mem, read_writeAll_zero, dif_pos h]
  case others => rw [State.setMem_mem, read_writeAll_zero, dif_neg (Nat.not_lt.mpr past)]

end Sys2Proof.Machine
end

section
/-!
PROOFS. The text at the edge of the core (R57, R78). A sink's line is the decimal digits of the value, each written as
its character, so the facts about one digit decide those about the line. The loader reads its digits most significant
first, so that after each one the accumulator is the value shifted right by the number of digits still to come.
-/
namespace Sys2Proof.Machine

/-! ## The sink's decimal line (R78) -/

theorem decimalDigit_value : ∀ d < 10, (decimalDigit d).toNat - 48 = d := by decide

theorem decimalDigit_isDigit : ∀ d < 10, (decimalDigit d).isDigit = true := by decide

theorem decimalDigit_ne_zero : ∀ d < 10, d ≠ 0 → decimalDigit d ≠ '0' := by decide

/-- Every line is the digits of a number in base 10; the first of more than one is not 0. -/
theorem sinkLine_eq_digits (v : Byte) : ∃ d ds, sinkLine v = (d :: ds).map decimalDigit ∧ (∀ e ∈ d :: ds, e < 10) ∧
    ds.foldl (fun n e => 10 * n + e) d = v.toNat ∧ (d = 0 → v = 0 ∧ ds = []) := by
  have byte := v.isLt
  unfold sinkLine
  by_cases one : v.toNat < 10
  · exact ⟨v.toNat, [], if_pos one, by simpa using one, rfl, fun zero => ⟨BitVec.eq_of_toNat_eq zero, rfl⟩⟩
  · by_cases two : v.toNat < 100
    · refine ⟨v.toNat / 10, [v.toNat % 10], by simp [one, two], ?_, Nat.div_add_mod _ 10, by omega⟩
      simp only [List.forall_mem_cons, List.not_mem_nil, false_implies, implies_true, and_true]
      omega
    · refine ⟨v.toNat / 100, [v.toNat / 10 % 10, v.toNat % 10], by simp [one, two], ?_, ?_, by omega⟩
      · simp only [List.forall_mem_cons, List.not_mem_nil, false_implies, implies_true, and_true]
        omega
      · simp only [List.foldl_cons, List.foldl_nil]
        omega

/-- The digit characters read back as the number whose digits they are. -/
theorem foldl_map_decimalDigit {ds : List Nat} (digits : ∀ e ∈ ds, e < 10) (n : Nat) :
    (ds.map decimalDigit).foldl (fun n c => 10 * n + (c.toNat - 48)) n = ds.foldl (fun n e => 10 * n + e) n := by
  induction ds generalizing n with
  | nil => rfl
  | cons e ds ih =>
    rw [List.forall_mem_cons] at digits
    rw [List.map_cons, List.foldl_cons, List.foldl_cons, decimalDigit_value e digits.1]
    exact ih digits.2 _

/-- Settles O56: the line is the digits of the value, and each digit's character is its own. -/
theorem sinkLineIsTheDecimalValue : Obligations.SinkLineIsTheDecimalValue := by
  intro v
  obtain ⟨d, ds, line, digits, value, leading⟩ := sinkLine_eq_digits v
  rw [line]
  refine ⟨?value, ?digits, ?leading⟩
  case value =>
    rw [foldl_map_decimalDigit digits, List.foldl_cons, Nat.mul_zero, Nat.zero_add, value]
  case digits =>
    rw [List.forall_mem_map]
    exact fun e member => decimalDigit_isDigit e (digits e member)
  case leading =>
    by_cases zero : d = 0
    · obtain ⟨rfl, rfl⟩ := leading zero
      exact .inl ⟨rfl, by rw [zero]; rfl⟩
    · refine .inr fun head => ?_
      rw [List.map_cons, List.head?_cons, Option.some_inj] at head
      exact decimalDigit_ne_zero d (digits d List.mem_cons_self) zero head

/-! ## The loader's binary line (R57) -/

/-- The character of a binary digit. -/
def binaryChar (b : Bool) : Char := if b then '1' else '0'

theorem binaryDigit_binaryChar (b : Bool) : binaryDigit (binaryChar b) = some b.toNat := by
  cases b <;> rfl

theorem shiftRight_eq_double_add_testBit (x n : Nat) :
    2 * (x >>> (n + 1)) + (x.testBit n).toNat = x >>> n := by
  rw [Nat.toNat_testBit, Nat.shiftRight_succ, Nat.shiftRight_eq_div_pow]
  omega

/-- The binary digits of the low `n` bits of `x`, most significant first. -/
def binaryChars (x : Nat) : Nat → List Char
  | 0 => []
  | n + 1 => binaryChar (x.testBit n) :: binaryChars x n

/-- Reading the low `n` digits of `x` after the digits above them gives `x`. -/
theorem readBinary_binaryChars (x n : Nat) (rest : List Char) :
    readBinary n (x >>> n) (binaryChars x n ++ rest) = some x := by
  induction n with
  | zero => rfl
  | succ n ih =>
    simp only [binaryChars, List.cons_append, readBinary, binaryDigit_binaryChar, shiftRight_eq_double_add_testBit]
    exact ih

theorem ofFn_getMsbD_eq_binaryChars (v : Byte) :
    List.ofFn (fun k : Fin 8 => if v.getMsbD k.val then '1' else '0') = binaryChars v.toNat 8 := rfl

/-- A line with eight binary digits in front is significant, since its first character is a digit. -/
theorem readLine_of_readBinary {line : List Char} {n : Nat} (reads : readBinary 8 0 line = some n) :
    readLine line = .byte (BitVec.ofNat 8 n) := by
  cases line with
  | nil => cases reads
  | cons c rest =>
    cases digit : binaryDigit c with
    | none => simp [readBinary, digit] at reads
    | some b => simp only [readLine, digit, reads]

theorem binaryDigit_of_ne {c : Char} (not0 : c ≠ '0') (not1 : c ≠ '1') : binaryDigit c = none := by
  unfold binaryDigit
  split
  · exact absurd rfl not0
  · exact absurd rfl not1
  · rfl

/-- Settles O57: the eight digits read back as the byte; a line with another first character is not significant. -/
theorem loaderLineGivesItsByte : Obligations.LoaderLineGivesItsByte := by
  refine ⟨fun v rest => ?byte, fun c rest not0 not1 => ?ignored⟩
  case byte =>
    have reads := readBinary_binaryChars v.toNat 8 rest
    rw [Nat.shiftRight_eq_zero v.toNat 8 v.isLt] at reads
    rw [ofFn_getMsbD_eq_binaryChars, readLine_of_readBinary reads, BitVec.ofNat_toNat, BitVec.setWidth_eq]
  case ignored => simp only [readLine, binaryDigit_of_ne not0 not1]

end Sys2Proof.Machine
end
